-- ==== Sys2Proof/Word.lean ====
section
/-! DEFINITION. The word types of the core and the named constants of R7.

Every value of the core is an unsigned number (R7). A register is a bit vector of its width, a
stream is a list, and arithmetic is exact on natural numbers (R8) before it is narrowed to a
register. -/

namespace Sys2Proof

/-- A 32-bit register, table entry or response word (R6). -/
abbrev Word := BitVec 32

/-- One byte of `OUT` or `IN`, and every 8-bit field of a command word. -/
abbrev Byte := BitVec 8

/-- A 64-bit command word (R80). -/
abbrev CmdWord := BitVec 64

/-- `HALF = 2^31` (R7). -/
def half : Nat := 0x80000000

/-- `QUARTER = 2^30` (R7). -/
def quarter : Nat := 0x40000000

/-- `THREE_QUARTER = 3 * 2^30` (R7). -/
def threeQuarter : Nat := 0xC0000000

/-- `TOP = 2^32 - 1` (R7): the largest value of a 32-bit register. -/
def top : Nat := 0xFFFFFFFF

end Sys2Proof
end

