-- ==== Sys2Proof/Syntax.lean ====
section
/-! DEFINITION. The commands of the core (R84), their operand fields (R83), the result of decoding a
word (R86), and assembly lines as a host writes them (R89, R90). -/

namespace Sys2Proof

/-- The table select bit `M` (R83): 0 is the uniform table `UCUM`, 1 the built table `CUM`. -/
inductive TableSel where
  | uniform
  | built
  deriving DecidableEq, Repr

/-- The eleven commands of R84, one constructor per row of the opcode table. Each operand has the
width of its field in R83. -/
inductive Instr where
  /-- `NOP` (R240). -/
  | nop
  /-- `ENC_INIT` (R160). -/
  | encInit
  /-- `ENC_SYM` with `M` and `SYM` (R161). -/
  | encSym (m : TableSel) (sym : Byte)
  /-- `ENC_FIN` (R170). -/
  | encFin
  /-- `DEC_INIT` (R200). -/
  | decInit
  /-- `DEC_SYM` with `M` (R202). -/
  | decSym (m : TableSel)
  /-- `LUT_WFREQ` with `SYM` and `VAL` (R110). -/
  | lutWfreq (sym : Byte) (val : Word)
  /-- `LUT_RFREQ` with `SYM` (R111). -/
  | lutRfreq (sym : Byte)
  /-- `LUT_BUILD` (R112). -/
  | lutBuild
  /-- `LUT_RD` with the 9-bit `IDX` (R114). -/
  | lutRd (idx : BitVec 9)
  /-- `RDREG` with `REG` (R242). -/
  | rdreg (reg : Byte)
  deriving DecidableEq, Repr

/-- The mnemonics of R84, one per row of the match and mask table of R85. -/
inductive Mnemonic where
  | nop | encInit | encSym | encFin | decInit | decSym
  | lutWfreq | lutRfreq | lutBuild | lutRd | rdreg
  deriving DecidableEq, Repr

/-- Why a word is illegal (R87). Both reasons raise `ILLEGAL_CMD`. -/
inductive IllegalReason where
  /-- The opcode is in 0x0B..0xFF. -/
  | reservedOpcode
  /-- A reserved bit of the opcode's format is 1. -/
  | reservedBit
  deriving DecidableEq, Repr

/-- The result of the decode function (R86). -/
inductive Decoded where
  | command (i : Instr)
  | illegal (why : IllegalReason)
  deriving DecidableEq, Repr

/-- The register names of the register map (R38), in the order of their numbers. -/
inductive RegName where
  | status | config | encLow | encHigh | encPending | encBits | encOutcnt
  | decLow | decHigh | decCode | decBitpos
  deriving DecidableEq, Repr

/-- The operand of `rdreg`: a register name or a number (R89). -/
inductive RegOperand where
  | name (r : RegName)
  | number (n : Nat)
  deriving DecidableEq, Repr

/-- One line of assembly (R89). Operands are numbers as the host wrote them; one outside its field is
an assembly error (see `AsmLine.wellFormed`). `u` and `t` are the two values of `TableSel`. -/
inductive AsmLine where
  | nop
  | encInit
  | encSym (m : TableSel) (sym : Nat)
  | encFin
  | decInit
  | decSym (m : TableSel)
  | lutWfreq (sym val : Nat)
  | lutRfreq (sym : Nat)
  | lutBuild
  | lutRd (idx : Nat)
  | rdreg (reg : RegOperand)
  deriving DecidableEq, Repr

/-- The pseudo-instructions of R90. -/
inductive Pseudo where
  /-- `enc.u32 <v>`. -/
  | encU32 (v : Word)
  /-- `dec.u32`. -/
  | decU32
  /-- `lut.load <f0>, ..., <f255>`. -/
  | lutLoad (freqs : Vector Word 256)
  /-- `enc.bytes <m>, <b0>, ..., <bn>`. -/
  | encBytes (m : TableSel) (bytes : List Byte)
  /-- `lut.uniform`. -/
  | lutUniform
  deriving DecidableEq, Repr

end Sys2Proof
end

