-- ==== Sys2Proof/WellFormed.lean ====
section
/-! DEFINITION. Well-formed commands and assembly lines.

An `Instr` carries the width of each field in its type, so every `Instr` is well formed: `IDX > 256`
and `REG > 0x0A` fit their fields, decode, and fault at execution (R87). What can be ill formed is an
assembly line: "An operand outside its field's range is an assembly error, not a word" (R89). -/

namespace Sys2Proof

/-- Every command whose operands fit their fields is well formed, and the types make them fit (R83,
R87). One line per constructor, so that a new command has to say what it asks of its operands. -/
def Instr.wellFormed : Instr → Bool
  | .nop => true
  | .encInit => true
  | .encSym _ _ => true
  | .encFin => true
  | .decInit => true
  | .decSym _ => true
  | .lutWfreq _ _ => true
  | .lutRfreq _ => true
  | .lutBuild => true
  | .lutRd _ => true
  | .rdreg _ => true

/-- A register operand names a register or is a number that fits the `REG` field (R89). -/
def RegOperand.wellFormed : RegOperand → Bool
  | .name _ => true
  | .number n => decide (n < 2 ^ 8)

/-- The operand ranges of R89: `<sym>` in 0..255, `<val>` in 0..2^32-1, `<idx>` in 0..511, `<reg>` a
name or a number in 0..255. -/
def AsmLine.wellFormed : AsmLine → Bool
  | .nop => true
  | .encInit => true
  | .encSym _ sym => decide (sym < 2 ^ 8)
  | .encFin => true
  | .decInit => true
  | .decSym _ => true
  | .lutWfreq sym val => decide (sym < 2 ^ 8) && decide (val < 2 ^ 32)
  | .lutRfreq sym => decide (sym < 2 ^ 8)
  | .lutBuild => true
  | .lutRd idx => decide (idx < 2 ^ 9)
  | .rdreg reg => reg.wellFormed

end Sys2Proof
end

