-- ==== Sys2Proof/Decode.lean ====
section
/-! DEFINITION. Decoding a command word (R80 to R87), the encoder written from the same formats
(R82), and the assembler with its pseudo-instructions (R89, R90).

`decode` is total on every 64-bit word. It refuses a word by the name of what is wrong with it. -/

namespace Sys2Proof

/-! ### Fields (R83) -/

/-- `OP = w[7:0]`. -/
def opField (w : CmdWord) : Byte := w.extractLsb' 0 8

/-- `SYM = w[15:8]`, and `REG = w[15:8]`. -/
def symField (w : CmdWord) : Byte := w.extractLsb' 8 8

/-- `M = w[16]`: 0 selects the uniform table, 1 the built one. -/
def mField (w : CmdWord) : TableSel := if w.getLsbD 16 then .built else .uniform

/-- `IDX = w[16:8]`. -/
def idxField (w : CmdWord) : BitVec 9 := w.extractLsb' 8 9

/-- `VAL = w[63:32]`. -/
def valField (w : CmdWord) : Word := w.extractLsb' 32 32

/-! ### The opcode map and the match and mask table -/

/-- The opcode map of R84; 0x0B to 0xFF are reserved. -/
def Mnemonic.ofOpcode (op : Byte) : Option Mnemonic :=
  match op.toNat with
  | 0x00 => some .nop
  | 0x01 => some .encInit
  | 0x02 => some .encSym
  | 0x03 => some .encFin
  | 0x04 => some .decInit
  | 0x05 => some .decSym
  | 0x06 => some .lutWfreq
  | 0x07 => some .lutRfreq
  | 0x08 => some .lutBuild
  | 0x09 => some .lutRd
  | 0x0A => some .rdreg
  | _ => none

/-- The `match` column of R85. -/
def Mnemonic.pattern : Mnemonic → CmdWord
  | .nop => 0x0000000000000000
  | .encInit => 0x0000000000000001
  | .encSym => 0x0000000000000002
  | .encFin => 0x0000000000000003
  | .decInit => 0x0000000000000004
  | .decSym => 0x0000000000000005
  | .lutWfreq => 0x0000000000000006
  | .lutRfreq => 0x0000000000000007
  | .lutBuild => 0x0000000000000008
  | .lutRd => 0x0000000000000009
  | .rdreg => 0x000000000000000A

/-- The `mask` column of R85: a 1 in every opcode bit and every reserved bit. -/
def Mnemonic.mask : Mnemonic → CmdWord
  | .nop => 0xFFFFFFFFFFFFFFFF
  | .encInit => 0xFFFFFFFFFFFFFFFF
  | .encSym => 0xFFFFFFFFFFFE00FF
  | .encFin => 0xFFFFFFFFFFFFFFFF
  | .decInit => 0xFFFFFFFFFFFFFFFF
  | .decSym => 0xFFFFFFFFFFFEFFFF
  | .lutWfreq => 0x00000000FFFF00FF
  | .lutRfreq => 0xFFFFFFFFFFFF00FF
  | .lutBuild => 0xFFFFFFFFFFFFFFFF
  | .lutRd => 0xFFFFFFFFFFFE00FF
  | .rdreg => 0xFFFFFFFFFFFF00FF

/-- The command a row's word stands for: the fields of the row's format (R86). -/
def Mnemonic.command (w : CmdWord) : Mnemonic → Instr
  | .nop => .nop
  | .encInit => .encInit
  | .encSym => .encSym (mField w) (symField w)
  | .encFin => .encFin
  | .decInit => .decInit
  | .decSym => .decSym (mField w)
  | .lutWfreq => .lutWfreq (symField w) (valField w)
  | .lutRfreq => .lutRfreq (symField w)
  | .lutBuild => .lutBuild
  | .lutRd => .lutRd (idxField w)
  | .rdreg => .rdreg (symField w)

/-- `Decode(w)` of R86. -/
def decode (w : CmdWord) : Decoded :=
  match Mnemonic.ofOpcode (opField w) with
  | none => .illegal .reservedOpcode
  | some m => if w &&& m.mask = m.pattern then .command (m.command w) else .illegal .reservedBit

/-! ### The encoder -/

/-- The row of a command (R84). -/
def Instr.mnemonic : Instr → Mnemonic
  | .nop => .nop
  | .encInit => .encInit
  | .encSym _ _ => .encSym
  | .encFin => .encFin
  | .decInit => .decInit
  | .decSym _ => .decSym
  | .lutWfreq _ _ => .lutWfreq
  | .lutRfreq _ => .lutRfreq
  | .lutBuild => .lutBuild
  | .lutRd _ => .lutRd
  | .rdreg _ => .rdreg

/-- The bit `M` of a table select (R83). -/
def TableSel.bit : TableSel → BitVec 1
  | .uniform => 0
  | .built => 1

/-- A field of a command word: its lowest bit stands at bit `lo`. -/
def fieldAt {n : Nat} (lo : Nat) (x : BitVec n) : CmdWord := x.setWidth 64 <<< lo

/-- Format N (R82): nothing but the opcode. -/
def formatN (op : Byte) : CmdWord := fieldAt 0 op

/-- Format S (R82): `M` in bit 16, `SYM` in bits 15 to 8. -/
def formatS (m : TableSel) (sym op : Byte) : CmdWord :=
  fieldAt 16 m.bit ||| fieldAt 8 sym ||| fieldAt 0 op

/-- Format D (R82): `M` in bit 16. -/
def formatD (m : TableSel) (op : Byte) : CmdWord := fieldAt 16 m.bit ||| fieldAt 0 op

/-- Format W (R82): `VAL` in bits 63 to 32, `SYM` in bits 15 to 8. -/
def formatW (val : Word) (sym op : Byte) : CmdWord :=
  fieldAt 32 val ||| fieldAt 8 sym ||| fieldAt 0 op

/-- Format X (R82): `SYM` or `REG` in bits 15 to 8. -/
def formatX (index op : Byte) : CmdWord := fieldAt 8 index ||| fieldAt 0 op

/-- Format I (R82): `IDX` in bits 16 to 8. -/
def formatI (idx : BitVec 9) (op : Byte) : CmdWord := fieldAt 8 idx ||| fieldAt 0 op

/-- The command word of a command, by its format (R82) and its opcode (R84). -/
def encode : Instr → CmdWord
  | .nop => formatN 0x00
  | .encInit => formatN 0x01
  | .encSym m sym => formatS m sym 0x02
  | .encFin => formatN 0x03
  | .decInit => formatN 0x04
  | .decSym m => formatD m 0x05
  | .lutWfreq sym val => formatW val sym 0x06
  | .lutRfreq sym => formatX sym 0x07
  | .lutBuild => formatN 0x08
  | .lutRd idx => formatI idx 0x09
  | .rdreg reg => formatX reg 0x0A

/-! ### The assembler (R89) and the pseudo-instructions (R90) -/

/-- The number of a named register (R38). -/
def RegName.regField : RegName → Byte
  | .status => 0x00
  | .config => 0x01
  | .encLow => 0x02
  | .encHigh => 0x03
  | .encPending => 0x04
  | .encBits => 0x05
  | .encOutcnt => 0x06
  | .decLow => 0x07
  | .decHigh => 0x08
  | .decCode => 0x09
  | .decBitpos => 0x0A

/-- The `REG` field of a register operand (R89). -/
def RegOperand.regField : RegOperand → Byte
  | .name r => r.regField
  | .number n => BitVec.ofNat 8 n

/-- The command of a well-formed line (R89). -/
def AsmLine.command : AsmLine → Instr
  | .nop => .nop
  | .encInit => .encInit
  | .encSym m sym => .encSym m (BitVec.ofNat 8 sym)
  | .encFin => .encFin
  | .decInit => .decInit
  | .decSym m => .decSym m
  | .lutWfreq sym val => .lutWfreq (BitVec.ofNat 8 sym) (BitVec.ofNat 32 val)
  | .lutRfreq sym => .lutRfreq (BitVec.ofNat 8 sym)
  | .lutBuild => .lutBuild
  | .lutRd idx => .lutRd (BitVec.ofNat 9 idx)
  | .rdreg reg => .rdreg reg.regField

/-- The assembler: an ill-formed line is an assembly error and gives no word (R89). -/
def AsmLine.assemble (line : AsmLine) : Option CmdWord :=
  if line.wellFormed then some (encode line.command) else none

/-- The four bytes of a 32-bit header value, low byte first (R71). -/
def headerBytes (v : Word) : List Byte :=
  [v.extractLsb' 0 8, v.extractLsb' 8 8, v.extractLsb' 16 8, v.extractLsb' 24 8]

/-- The `LUT_WFREQ` commands that write a list of frequencies from entry `sym` on (R90). -/
def writeFreqs (sym : Nat) : List Word → List Instr
  | [] => []
  | f :: fs => .lutWfreq (BitVec.ofNat 8 sym) f :: writeFreqs (sym + 1) fs

/-- The expansions of R90. -/
def Pseudo.expand : Pseudo → List Instr
  | .encU32 v => (headerBytes v).map (.encSym .uniform)
  | .decU32 => List.replicate 4 (.decSym .uniform)
  | .lutLoad freqs => writeFreqs 0 freqs.toList ++ [.lutBuild]
  | .encBytes m bytes => bytes.map (.encSym m)
  | .lutUniform => writeFreqs 0 (List.replicate 256 1) ++ [.lutBuild]

/-! ### The opcode table's view of a word -/

/-- The command of the opcode-table word `w` of `nbits` bits: a command is one whole 64-bit word, to
which no byte order applies (R58, R80), so every bit above `nbits` is 0 and the rest is the word. -/
def decodeTableWord (nbits w : Nat) : Option Instr :=
  match decode (BitVec.ofNat 64 (w % 2 ^ nbits)) with
  | .command i => some i
  | .illegal _ => none

end Sys2Proof
end

