-- ==== Sys2Proof/Config.lean ====
section
/-! DEFINITION. The implementation parameters of R6.

`MAX_TOTAL` is the one open parameter. It is fixed when an instance is built and readable as the
`CONFIG` register, so the model holds it as the field `State.maxTotal`, which no step changes; every
statement about all states therefore holds for every instance. Only its default and its legal range
stand here. The model needs no free value: the spec fixes every result. -/

namespace Sys2Proof.Config

/-- The default of `MAX_TOTAL`, 2^16 (R6). -/
def defaultMaxTotal : Nat := 65536

/-- The least legal `MAX_TOTAL` (R6). -/
def leastMaxTotal : Nat := 256

/-- The greatest legal `MAX_TOTAL`, 2^30 (R6). -/
def greatestMaxTotal : Nat := 0x40000000

/-- The largest value of the pending-bits counter, `2^PENDING_W - 1` with `PENDING_W = 32` (R6, R24). -/
def pendingLimit : Nat := 0xFFFFFFFF

/-- The number of renormalization iterations a symbol command may need at most (R169: "a model may
run it under fuel 32 and treat running out of fuel as impossible"). -/
def renormFuel : Nat := 32

end Sys2Proof.Config
end

