-- ==== Sys2Proof/Machine/State.lean ====
section
/-! DEFINITION. The state of the core (10_state.md), as plain data, and its value after reset (R36).

The registers stand in the unit that owns them (R2): `Encoder` holds those of `range_encoder` and
`bit_sink`, `Decoder` those of `range_decoder` and `bit_source`, `Lut` those of
`cumulative_frequency_lut`. The last three fields of `State` are no registers of the core: the
instance parameter `MAX_TOTAL`, and the command port with what the host is about to issue on it. -/

namespace Sys2Proof.Machine

/-- `ENC_PHASE` (R26). The value 3 is never held, so the type has three values. -/
inductive Phase where
  | fresh
  | encoding
  | finished
  deriving DecidableEq, Repr

/-- The registers of `range_encoder` and `bit_sink` (R22 to R27). -/
structure Encoder where
  /-- `ENC_LOW` (R22). -/
  low : Word
  /-- `ENC_HIGH` (R23). -/
  high : Word
  /-- `ENC_PENDING`, `PENDING_W` = 32 bits (R24). -/
  pending : Word
  /-- `ENC_BITBUF` (R25): the held bits, the earliest in the most significant held position. -/
  bitBuf : Byte
  /-- `ENC_BITCNT` (R25): how many bits are held, 0 to 7. -/
  bitCnt : BitVec 3
  /-- `ENC_PHASE` (R26). -/
  phase : Phase
  /-- `OUT` (R27): the output byte stream of the session, first byte first. -/
  out : List Byte
  deriving DecidableEq, Repr

/-- The registers of `range_decoder` and `bit_source` (R30 to R32). -/
structure Decoder where
  /-- `DEC_LOW` (R30). -/
  low : Word
  /-- `DEC_HIGH` (R30). -/
  high : Word
  /-- `DEC_CODE` (R30). -/
  code : Word
  /-- `DEC_BITPOS` (R31): a natural number with no upper bound. -/
  bitPos : Nat
  /-- `DEC_ACTIVE` (R31). -/
  active : Bool
  /-- `IN` (R32): the input byte stream as captured by `DEC_INIT`. -/
  input : List Byte
  deriving DecidableEq, Repr

/-- A cumulative table: 257 entries of 32 bits (R29). -/
abbrev Table := Vector Word 257

/-- The state of `cumulative_frequency_lut` (R28, R29). -/
structure Lut where
  /-- `FREQ[0..255]` (R28). -/
  freq : Vector Word 256
  /-- `CUM[0..256]` (R29); meaningful only while `valid`. -/
  cum : Table
  /-- `LUT_VALID` (R29). -/
  valid : Bool
  deriving DecidableEq, Repr

/-- The fault codes a command can raise (R261). The codes 0x0A to 0xFF are never written. -/
inductive FaultCode where
  /-- `ILLEGAL_CMD`, raised by any word that decodes to nothing. -/
  | illegalCmd
  /-- `ENC_FINISHED`, raised by `ENC_SYM` and `ENC_FIN`. -/
  | encFinished
  /-- `DEC_NOT_ACTIVE`, raised by `DEC_SYM`. -/
  | decNotActive
  /-- `LUT_NOT_VALID`, raised by `ENC_SYM M=1`, `DEC_SYM M=1` and `LUT_RD`. -/
  | lutNotValid
  /-- `BAD_TOTAL`, raised by `ENC_SYM` and `DEC_SYM`. -/
  | badTotal
  /-- `ZERO_FREQ`, raised by `ENC_SYM`. -/
  | zeroFreq
  /-- `LUT_OVERFLOW`, raised by `LUT_BUILD`. -/
  | lutOverflow
  /-- `PENDING_OVERFLOW`, raised by `ENC_SYM` and `ENC_FIN`. -/
  | pendingOverflow
  /-- `BAD_INDEX`, raised by `LUT_RD` and `RDREG`. -/
  | badIndex
  deriving DecidableEq, Repr

/-- What the host does on the command port and the reset line. -/
inductive HostInput where
  /-- A command word is issued, beside it the byte sequence the host presents as `IN`; only `DEC_INIT`
  takes that sequence (R3, R56). -/
  | command (word : CmdWord) (stream : List Byte)
  /-- `rst` is asserted (R290), possibly while a command word is being issued. -/
  | reset (issued : Option CmdWord)
  deriving DecidableEq, Repr

/-- The state of the machine. The first six fields are the core's own (10_state.md); `maxTotal` is the
instance parameter (R6); `pending` and `inPort` are the model's view of the host's side (R21). -/
structure State where
  /-- `range_encoder` and `bit_sink`. -/
  enc : Encoder
  /-- `range_decoder` and `bit_source`. -/
  dec : Decoder
  /-- `cumulative_frequency_lut`. -/
  lut : Lut
  /-- `FAULT` (R33). -/
  fault : Bool
  /-- `FAULT_CODE` (R33). -/
  faultCode : Byte
  /-- `RSP` (R34): the response stream, first word first. -/
  rsp : List Word
  /-- `MAX_TOTAL` (R6): constant, whatever the core does. -/
  maxTotal : Word
  /-- What the host still issues, in order (R60). -/
  pending : List HostInput
  /-- The byte sequence presented with the command last issued (R56). -/
  inPort : List Byte
  deriving DecidableEq, Repr

/-- Why the machine stops. Each reason is a point where the spec's pseudocode has no result: R8 lets a
subtraction stand only where it cannot go below zero and a result only where it fits. No state that
meets the invariants of R37, R39 and R113 reaches one, so every stop is safe: the model says nothing
where the spec says nothing. -/
inductive Fault where
  /-- Raised by `ENC_SYM` and `DEC_SYM`: a subtraction of `Narrow` (R163) or `DecValue` (R203) would go
  below zero, or a new bound does not fit 32 bits. Safe. -/
  | intervalArithmetic
  /-- Raised by `ENC_SYM` and `DEC_SYM`: the selected table falls at the symbol, so that its frequency
  (R119) is no natural number. Safe. -/
  | tableNotMonotone
  /-- Raised by `DEC_SYM`: no symbol has `tab[s] ≤ value < tab[s+1]` (R204). Safe. -/
  | noSymbol
  /-- Raised by `ENC_SYM` and `DEC_SYM`: the renormalization loop has not ended after the 32 iterations
  of R169. Safe. -/
  | renormLoop
  deriving DecidableEq, Repr

/-- Why the model refuses an instruction. -/
inductive Refusal where
  /-- Raised by an arm of `exec` for an instruction that has no meaning yet; no arm does so. Safe. -/
  | notModelled (mnemonic : String)
  deriving DecidableEq, Repr

/-- How a command's own rule ends when it does not complete: by a fault of the core (R264), after which
the core goes on, or by a stop of the model. -/
inductive Abort where
  | raise (c : FaultCode)
  | stuck (f : Fault)
  deriving DecidableEq, Repr

/-- The encoder registers after reset (R36): the Fresh state. -/
def Encoder.reset : Encoder where
  low := 0
  high := 0xFFFFFFFF
  pending := 0
  bitBuf := 0
  bitCnt := 0
  phase := .fresh
  out := []

/-- The decoder registers after reset (R36). -/
def Decoder.reset : Decoder where
  low := 0
  high := 0xFFFFFFFF
  code := 0
  bitPos := 0
  active := false
  input := []

/-- The tables after reset (R36). The spec leaves `CUM` unspecified and unreadable until it is built;
DESIGN CHOICE: every entry is 0 (log entry 1). -/
def Lut.reset : Lut where
  freq := Vector.replicate 256 0
  cum := Vector.replicate 257 0
  valid := false

/-- An instance with the given `MAX_TOTAL` right after reset (R36, R292). -/
def State.resetWith (maxTotal : Word) : State where
  enc := Encoder.reset
  dec := Decoder.reset
  lut := Lut.reset
  fault := false
  faultCode := 0
  rsp := []
  maxTotal := maxTotal
  pending := []
  inPort := []

/-- The machine right after reset (R36), an instance with the default `MAX_TOTAL` (R6), whose host has
issued nothing yet (R291). -/
def State.reset : State := State.resetWith (BitVec.ofNat 32 Config.defaultMaxTotal)

end Sys2Proof.Machine
end

