-- ==== Sys2Proof/Machine/Ops.lean ====
section
/-! DEFINITION. The named operations every command goes through: the command port, responses, the
common checks of R262, taking a fault (R264) and leaving one, which only reset does (R266, R290). -/

namespace Sys2Proof.Machine

/-! ### Responses and the fault line -/

/-- `Respond(v)` (R57): append one word to the response stream. -/
def respond (v : Word) (s : State) : State := { s with rsp := s.rsp ++ [v] }

/-- The output signal `fault_out`, equal at all times to `FAULT` (R267). -/
def faultOut (s : State) : Bool := s.fault

/-! ### Faults -/

/-- The number of a fault code (R261). -/
def faultNumber : FaultCode → Byte
  | .illegalCmd => 0x01
  | .encFinished => 0x02
  | .decNotActive => 0x03
  | .lutNotValid => 0x04
  | .badTotal => 0x05
  | .zeroFreq => 0x06
  | .lutOverflow => 0x07
  | .pendingOverflow => 0x08
  | .badIndex => 0x09

/-- Fault entry (R264): the state is the one before the command began, with the fault recorded. -/
def takeFault (c : FaultCode) (s : State) : State :=
  { s with fault := true, faultCode := faultNumber c }

/-- The end of a command that began in `s`: its result, or the fault it raised taken in `s` (R59,
R264), or a stop. -/
def conclude (s : State) : Except Abort State → Host.Outcome State Fault Refusal
  | .ok t => .next t
  | .error (.raise c) => .next (takeFault c s)
  | .error (.stuck f) => .fault f

/-- A command with the common check of R262: while `FAULT = 1` the word is discarded (R265), else the
command's own rule `body` runs. -/
def command (s : State) (body : Except Abort State) : Host.Outcome State Fault Refusal :=
  if s.fault then .next s else conclude s body

/-- A check of a command's own rule: go on if `p` holds, else raise the fault. -/
def require (p : Bool) (c : FaultCode) : Except Abort Unit :=
  if p then .ok () else .error (.raise c)

/-- An illegal word (R87, R262): `ILLEGAL_CMD`, or nothing while faulted. -/
def execIllegal (s : State) : Host.Outcome State Fault Refusal :=
  command s (.error (.raise .illegalCmd))

/-! ### Reset, the only return from a fault -/

/-- The reset event (R290): every register takes its reset value; `MAX_TOTAL` is no register (R292),
and what the host still issues is the host's. -/
def applyReset (s : State) : State := { State.resetWith s.maxTotal with pending := s.pending }

/-! ### The command port -/

/-- What the command port holds for the next step. -/
inductive Issue where
  /-- The host has issued nothing: the core holds its state (R275, R291). -/
  | idle
  /-- `rst` is asserted; the state is the one after reset. -/
  | reset (s : State)
  /-- A command word is accepted; the state has it taken off the port. -/
  | word (w : CmdWord) (s : State)
  deriving DecidableEq, Repr

/-- Take the host's next input off the port (R60). A word issued while `rst` is asserted is not
executed (R290). -/
def takeInput (s : State) : Issue :=
  match s.pending with
  | [] => .idle
  | .reset _ :: rest => .reset (applyReset { s with pending := rest })
  | .command w stream :: rest => .word w { s with pending := rest, inPort := stream }

/-- The host issues `w` next, presenting an empty `IN`: the one command ahead of all others. -/
def issueNext (w : CmdWord) (s : State) : State :=
  { s with pending := .command w [] :: s.pending }

end Sys2Proof.Machine
end

