-- ==== Sys2Proof/Machine/Bits.lean ====
section
/-! DEFINITION. The bit sink and the bit source (41_bit_sink_source.md), and the bit stream of a byte
sequence (R54). Both streams are most significant bit first (R53). -/

namespace Sys2Proof.Machine

/-- `StreamBit(B, k)` (R54): bit `k` of a byte sequence, 0 past its end. -/
def streamBit (bytes : List Byte) (k : Nat) : Bool :=
  match bytes[k / 8]? with
  | some b => b.getLsbD (7 - k % 8)
  | none => false

/-- `SinkPut(b)` (R140). -/
def sinkPut (b : Bool) (e : Encoder) : Encoder :=
  let buf := (e.bitBuf <<< 1) ||| (BitVec.ofBool b).setWidth 8
  if e.bitCnt.toNat + 1 = 8 then { e with out := e.out ++ [buf], bitBuf := 0, bitCnt := 0 }
  else { e with bitBuf := buf, bitCnt := e.bitCnt + 1 }

/-- `SinkPut(b)`, `n` times. -/
def sinkPutMany (b : Bool) : Nat → Encoder → Encoder
  | 0, e => e
  | n + 1, e => sinkPutMany b n (sinkPut b e)

/-- `SinkFlush()` (R141). -/
def sinkFlush (e : Encoder) : Encoder :=
  if 0 < e.bitCnt.toNat then
    { e with out := e.out ++ [e.bitBuf <<< (8 - e.bitCnt.toNat)], bitBuf := 0, bitCnt := 0 }
  else e

/-- `Emit(b)` (R143): the definite bit, then the pending bits, each its complement. -/
def emit (b : Bool) (e : Encoder) : Encoder :=
  { sinkPutMany (!b) e.pending.toNat (sinkPut b e) with pending := 0 }

/-- `SourceGet()` (R145): the next input bit, 0 past the end, and the decoder after reading it. -/
def sourceGet (d : Decoder) : Bool × Decoder :=
  (streamBit d.input d.bitPos, { d with bitPos := d.bitPos + 1 })

/-- `DEC_CODE <- (DEC_CODE << 1) | SourceGet()` (R200, R208). -/
def shiftCodeIn (d : Decoder) : Decoder :=
  let (b, d') := sourceGet d
  { d' with code := (d.code <<< 1) ||| (BitVec.ofBool b).setWidth 32 }

end Sys2Proof.Machine
end

