-- ==== Sys2Proof/Machine/Flags.lean ====
section
/-! DEFINITION. The STATUS word and the register map (R38). The core has no condition codes (R35): its
only flags are the STATUS fields, each computed here from the state. Reserved bits read 0. -/

namespace Sys2Proof.Machine

/-- The number of a phase (R26). -/
def phaseBits : Phase → BitVec 2
  | .fresh => 0
  | .encoding => 1
  | .finished => 2

/-- A field of a register: its lowest bit stands at bit `lo`. -/
def regFieldAt {n : Nat} (lo : Nat) (x : BitVec n) : Word := x.setWidth 32 <<< lo

/-- `STATUS` (R38): `FAULT_CODE` in [15:8], `FAULT` in [4], `LUT_VALID` in [3], `DEC_ACTIVE` in [2],
`ENC_PHASE` in [1:0]. -/
def statusWord (s : State) : Word :=
  regFieldAt 8 s.faultCode ||| regFieldAt 4 (BitVec.ofBool s.fault)
    ||| regFieldAt 3 (BitVec.ofBool s.lut.valid) ||| regFieldAt 2 (BitVec.ofBool s.dec.active)
    ||| regFieldAt 0 (phaseBits s.enc.phase)

/-- `ENC_BITS` (R38): `ENC_BITCNT` in [10:8], `ENC_BITBUF` in [7:0]. -/
def encBitsWord (e : Encoder) : Word := regFieldAt 8 e.bitCnt ||| regFieldAt 0 e.bitBuf

/-- `RegValue(REG)`, the register map of R38; there is no register above 0x0A. -/
def regValue (s : State) (reg : Byte) : Option Word :=
  match reg.toNat with
  | 0x00 => some (statusWord s)
  | 0x01 => some s.maxTotal
  | 0x02 => some s.enc.low
  | 0x03 => some s.enc.high
  | 0x04 => some s.enc.pending
  | 0x05 => some (encBitsWord s.enc)
  | 0x06 => some (BitVec.ofNat 32 s.enc.out.length)
  | 0x07 => some s.dec.low
  | 0x08 => some s.dec.high
  | 0x09 => some s.dec.code
  | 0x0A => some (BitVec.ofNat 32 s.dec.bitPos)
  | _ => none

end Sys2Proof.Machine
end

