-- ==== Sys2Proof/Machine/ControlCommands.lean ====
section
/-! DEFINITION. The control commands (44_control.md). They alone execute while `FAULT = 1` (R265). -/

namespace Sys2Proof.Machine

/-- `NOP` (R240): nothing, also while faulted. -/
def execNop (s : State) : Host.Outcome State Fault Refusal := .next s

/-- `RDREG` (R242): respond with a register, also while faulted (R265). A number above 0x0A raises
`BAD_INDEX`, or is discarded while faulted. -/
def execRdreg (reg : Byte) (s : State) : Host.Outcome State Fault Refusal :=
  match regValue s reg with
  | some v => .next (respond v s)
  | none => command s (.error (.raise .badIndex))

end Sys2Proof.Machine
end

