-- ==== Sys2Proof/Machine/Interval.lean ====
section
/-! DEFINITION. The interval arithmetic the encoder and the decoder share: `Narrow` (R163), the four
cases of renormalization (R164 to R168) and the shift (R168). -/

namespace Sys2Proof.Machine

/-- `Narrow(low, high, cum_low, freq, total)` (R163), as the pair of the new low and the new high. Both
products and quotients are exact. There is no result where `high - low` or the final `- 1` would go
below zero or a bound would not fit 32 bits (R8). -/
def narrow (low high : Word) (cumLow freq total : Nat) : Except Abort (Word × Word) :=
  let range := high.toNat - low.toNat + 1
  let newLow := low.toNat + range * cumLow / total
  let beyondHigh := low.toNat + range * (cumLow + freq) / total
  if low.toNat ≤ high.toNat ∧ newLow ≤ top ∧ 1 ≤ beyondHigh ∧ beyondHigh - 1 ≤ top then
    .ok (BitVec.ofNat 32 newLow, BitVec.ofNat 32 (beyondHigh - 1))
  else .error (.stuck .intervalArithmetic)

/-- The four cases of renormalization. -/
inductive RenormCase where
  /-- Case 1 (R165): `high < HALF`. -/
  | lower
  /-- Case 2 (R166): `low ≥ HALF`. -/
  | upper
  /-- Case 3 (R167): `low ≥ QUARTER` and `high < THREE_QUARTER`. -/
  | middle
  /-- Case 4 (R168): stop. -/
  | stop
  deriving DecidableEq, Repr

/-- The first case that applies, tested in the order of R164. -/
def renormCase (low high : Word) : RenormCase :=
  if high.toNat < half then .lower
  else if half ≤ low.toNat then .upper
  else if quarter ≤ low.toNat ∧ high.toNat < threeQuarter then .middle
  else .stop

/-- What a case subtracts from the bounds, and from `DEC_CODE` (R165 to R167, R206). -/
def RenormCase.offset : RenormCase → Word
  | .lower => 0
  | .upper => BitVec.ofNat 32 half
  | .middle => BitVec.ofNat 32 quarter
  | .stop => 0

/-- The shift of a lower bound: `low << 1` (R168). -/
def shiftLow (x : Word) : Word := x <<< 1

/-- The shift of an upper bound: `(high << 1) | 1` (R168). -/
def shiftHigh (x : Word) : Word := (x <<< 1) ||| 1

end Sys2Proof.Machine
end

