-- ==== Sys2Proof/Machine/Operands.lean ====
section
/-! DEFINITION. The operands of the commands: the staging array (R28), the table a symbol command
selects (R117, R118) and the parameters of a symbol in it (R119). -/

namespace Sys2Proof.Machine

/-- `FREQ[i]` (R28, R51): one whole entry. -/
def readFreq (l : Lut) (i : Byte) : Word := l.freq[i.toNat]'i.isLt

/-- `FREQ[i] <- v` (R28, R51). -/
def writeFreq (i : Byte) (v : Word) (l : Lut) : Lut :=
  { l with freq := l.freq.set i.toNat v i.isLt }

/-- The uniform table ROM: `UCUM[i] = i` for `i` in 0..256 (R117). -/
def ucum : Table := ⟨((List.range 257).map (BitVec.ofNat 32)).toArray, by simp⟩

/-- `total`, the last entry of a table (R118). -/
def tableTotal (tab : Table) : Nat := tab[256].toNat

/-- `cum_low` of a symbol (R119): the entry at its number. -/
def cumLow (tab : Table) (sym : Byte) : Nat :=
  (tab[sym.toNat]'(Nat.lt_trans sym.isLt (by decide))).toNat

/-- The entry after a symbol's, `cum_low + freq` (R119). -/
def cumNext (tab : Table) (sym : Byte) : Nat :=
  (tab[sym.toNat + 1]'(Nat.add_lt_add_right sym.isLt 1)).toNat

/-- The table a select names (R117, R118): the built one must be valid. -/
def selectTable (s : State) : TableSel → Except Abort Table
  | .uniform => .ok ucum
  | .built => if s.lut.valid then .ok s.lut.cum else .error (.raise .lutNotValid)

/-- `Lookup(M)` (R118): the selected table, if it may be used. Its total is `tableTotal`. -/
def lookup (s : State) (m : TableSel) : Except Abort Table := do
  let tab ← selectTable s m
  require (tableTotal tab ≠ 0 ∧ tableTotal tab ≤ s.maxTotal.toNat) .badTotal
  return tab

/-- The frequency of a symbol (R119), which is no natural number where the table falls. -/
def symFreq (tab : Table) (sym : Byte) : Except Abort Nat :=
  if cumLow tab sym ≤ cumNext tab sym then .ok (cumNext tab sym - cumLow tab sym)
  else .error (.stuck .tableNotMonotone)

end Sys2Proof.Machine
end

