-- ==== Sys2Proof/Machine/DecoderCommands.lean ====
section
/-! DEFINITION. The commands of `range_decoder` (43_range_decoder.md). -/

namespace Sys2Proof.Machine

/-- `shiftCodeIn`, `n` times (R200). -/
def shiftCodeInMany : Nat → Decoder → Decoder
  | 0, d => d
  | n + 1, d => shiftCodeInMany n (shiftCodeIn d)

/-- The decoder at the start of a session on the byte sequence `input` (R200). -/
def initDecoder (input : List Byte) (d : Decoder) : Decoder :=
  { shiftCodeInMany 32 { d with input := input, bitPos := 0, code := 0 } with
    low := 0, high := 0xFFFFFFFF, active := true }

/-- `DEC_INIT` (R200): begin a decoder session on the byte sequence the host presents. -/
def execDecInit (s : State) : Host.Outcome State Fault Refusal :=
  command s (.ok { s with dec := initDecoder s.inPort s.dec })

/-- `DecValue(total)` (R203). There is no result where a subtraction would go below zero (R8). -/
def decValue (total : Nat) (d : Decoder) : Except Abort Nat :=
  if d.low.toNat ≤ d.code.toNat ∧ d.low.toNat ≤ d.high.toNat ∧ 1 ≤ total then
    .ok (((d.code.toNat - d.low.toNat + 1) * total - 1) / (d.high.toNat - d.low.toNat + 1))
  else .error (.stuck .intervalArithmetic)

/-- The first position `s + k` whose entry is at most `value` and whose next entry exceeds it, among
the entries from position `s` on. -/
def searchFrom (value s : Nat) : List Word → Option Nat
  | a :: b :: rest =>
    if a.toNat ≤ value ∧ value < b.toNat then some s else searchFrom value (s + 1) (b :: rest)
  | _ => none

/-- `FindSymbol(tab, value)` (R204): the symbol with `tab[s] ≤ value < tab[s+1]`. Only the result is
architectural; the search here is linear. -/
def findSymbol (tab : Table) (value : Nat) : Except Abort Byte :=
  match searchFrom value 0 tab.toList with
  | some s => .ok (BitVec.ofNat 8 s)
  | none => .error (.stuck .noSymbol)

/-- The subtraction of a case and the shift that ends it (R206, R208): `DEC_CODE` moves with the bounds
and takes in one bit. -/
def decMove (c : RenormCase) (d : Decoder) : Decoder :=
  shiftCodeIn { d with
    low := shiftLow (d.low - c.offset)
    high := shiftHigh (d.high - c.offset)
    code := d.code - c.offset }

/-- `DecRenorm()` (R206), with the number of iterations it may still take (R169). -/
def decRenorm : Nat → Decoder → Except Abort Decoder
  | 0, d => if renormCase d.low d.high = .stop then .ok d else .error (.stuck .renormLoop)
  | fuel + 1, d =>
    if renormCase d.low d.high = .stop then .ok d
    else decRenorm fuel (decMove (renormCase d.low d.high) d)

/-- The decoder's own part of `DEC_SYM`: the symbol, and the decoder after it (R202). -/
def decodeSymbol (tab : Table) (d : Decoder) : Except Abort (Byte × Decoder) := do
  let value ← decValue (tableTotal tab) d
  let sym ← findSymbol tab value
  let freq ← symFreq tab sym
  let bounds ← narrow d.low d.high (cumLow tab sym) freq (tableTotal tab)
  let d' ← decRenorm Config.renormFuel { d with low := bounds.1, high := bounds.2 }
  return (sym, d')

/-- The rule of `DEC_SYM` (R202), its checks in the order of R263. -/
def decSymRule (m : TableSel) (s : State) : Except Abort State := do
  require s.dec.active .decNotActive
  let tab ← lookup s m
  let r ← decodeSymbol tab s.dec
  return respond (r.1.setWidth 32) { s with dec := r.2 }

/-- `DEC_SYM` (R202): decode one symbol. -/
def execDecSym (m : TableSel) (s : State) : Host.Outcome State Fault Refusal :=
  command s (decSymRule m s)

end Sys2Proof.Machine
end

