-- ==== Sys2Proof/Machine/EncoderCommands.lean ====
section
/-! DEFINITION. The commands of `range_encoder` (42_range_encoder.md). -/

namespace Sys2Proof.Machine

/-- The encoder at the start of a session (R160). -/
def freshEncoder : Encoder where
  low := 0
  high := 0xFFFFFFFF
  pending := 0
  bitBuf := 0
  bitCnt := 0
  phase := .fresh
  out := []

/-- `ENC_INIT` (R160): begin a new encoder session, in whatever phase the old one is. -/
def execEncInit (s : State) : Host.Outcome State Fault Refusal :=
  command s (.ok { s with enc := freshEncoder })

/-- `ENC_PENDING <- ENC_PENDING + 1`, which must not overflow the counter (R167, R170). -/
def addPending (e : Encoder) : Except Abort Encoder := do
  require (e.pending.toNat ≠ Config.pendingLimit) .pendingOverflow
  return { e with pending := e.pending + 1 }

/-- What a case emits or counts before the bounds move (R165 to R167). -/
def encCaseBits (c : RenormCase) (e : Encoder) : Except Abort Encoder :=
  match c with
  | .lower => .ok (emit false e)
  | .upper => .ok (emit true e)
  | .middle => addPending e
  | .stop => .ok e

/-- The subtraction of a case and the shift that ends it (R164, R168). -/
def encMove (c : RenormCase) (e : Encoder) : Encoder :=
  { e with low := shiftLow (e.low - c.offset), high := shiftHigh (e.high - c.offset) }

/-- `EncRenorm()` (R164), with the number of iterations it may still take (R169). -/
def encRenorm : Nat → Encoder → Except Abort Encoder
  | 0, e => if renormCase e.low e.high = .stop then .ok e else .error (.stuck .renormLoop)
  | fuel + 1, e =>
    if renormCase e.low e.high = .stop then .ok e
    else do
      let e' ← encCaseBits (renormCase e.low e.high) e
      encRenorm fuel (encMove (renormCase e.low e.high) e')

/-- The encoder's own part of `ENC_SYM`: narrow to the symbol and renormalize (R161). -/
def encodeSymbol (cumLow freq total : Nat) (e : Encoder) : Except Abort Encoder := do
  let bounds ← narrow e.low e.high cumLow freq total
  let e' ← encRenorm Config.renormFuel { e with low := bounds.1, high := bounds.2 }
  return { e' with phase := .encoding }

/-- The rule of `ENC_SYM` (R161), its checks in the order of R263. -/
def encSymRule (m : TableSel) (sym : Byte) (s : State) : Except Abort State := do
  require (s.enc.phase ≠ .finished) .encFinished
  let tab ← lookup s m
  let freq ← symFreq tab sym
  require (freq ≠ 0) .zeroFreq
  let e ← encodeSymbol (cumLow tab sym) freq (tableTotal tab) s.enc
  return { s with enc := e }

/-- `ENC_SYM` (R161): encode one symbol. -/
def execEncSym (m : TableSel) (sym : Byte) (s : State) : Host.Outcome State Fault Refusal :=
  command s (encSymRule m sym s)

/-- The encoder's own part of `ENC_FIN` (R170). -/
def finishEncoder (e : Encoder) : Except Abort Encoder := do
  let e' ← addPending e
  return { sinkFlush (emit (quarter ≤ e.low.toNat) e') with phase := .finished }

/-- The rule of `ENC_FIN` (R170), its checks in the order of R263. -/
def encFinRule (s : State) : Except Abort State := do
  require (s.enc.phase ≠ .finished) .encFinished
  let e ← finishEncoder s.enc
  return { s with enc := e }

/-- `ENC_FIN` (R170): finish the session. -/
def execEncFin (s : State) : Host.Outcome State Fault Refusal :=
  command s (encFinRule s)

end Sys2Proof.Machine
end

