-- ==== Sys2Proof/Machine/LutCommands.lean ====
section
/-! DEFINITION. The commands of `cumulative_frequency_lut` (40_frequency_lut.md). -/

namespace Sys2Proof.Machine

/-- `LUT_WFREQ` (R110): write one frequency. -/
def execLutWfreq (sym : Byte) (val : Word) (s : State) : Host.Outcome State Fault Refusal :=
  command s (.ok { s with lut := writeFreq sym val s.lut })

/-- `LUT_RFREQ` (R111): respond with one frequency. -/
def execLutRfreq (sym : Byte) (s : State) : Host.Outcome State Fault Refusal :=
  command s (.ok (respond (readFreq s.lut sym) s))

/-- The exact partial sums of a list of frequencies, from `acc` on (R112). -/
def partialSums (acc : Nat) : List Word → List Nat
  | [] => [acc]
  | f :: fs => acc :: partialSums (acc + f.toNat) fs

/-- A list of `n` frequencies has `n + 1` partial sums. -/
theorem partialSums_length (acc : Nat) (fs : List Word) :
    (partialSums acc fs).length = fs.length + 1 := by
  induction fs generalizing acc with
  | nil => rfl
  | cons f fs ih => simp [partialSums, ih]

/-- The sums `t[0], ..., t[256]` of `LUT_BUILD` (R112). -/
def buildSums (freq : Vector Word 256) : List Nat := partialSums 0 freq.toList

/-- The table that holds the sums (R112). -/
def buildTable (freq : Vector Word 256) : Table :=
  ⟨((buildSums freq).map (BitVec.ofNat 32)).toArray, by simp [buildSums, partialSums_length]⟩

/-- The rule of `LUT_BUILD` (R112): every partial sum must fit an entry. -/
def lutBuildRule (s : State) : Except Abort State := do
  require ((buildSums s.lut.freq).all (· ≤ top)) .lutOverflow
  return { s with lut := { s.lut with cum := buildTable s.lut.freq, valid := true } }

/-- `LUT_BUILD` (R112): build the cumulative table by prefix sum. -/
def execLutBuild (s : State) : Host.Outcome State Fault Refusal :=
  command s (lutBuildRule s)

/-- `CUM[i]` for a 9-bit index, which must be at most 256 (R114). -/
def readCum (l : Lut) (idx : BitVec 9) : Except Abort Word :=
  if h : idx.toNat < 257 then .ok l.cum[idx.toNat] else .error (.raise .badIndex)

/-- The rule of `LUT_RD` (R114): the index is checked before `LUT_VALID`. -/
def lutRdRule (idx : BitVec 9) (s : State) : Except Abort State := do
  let v ← readCum s.lut idx
  require s.lut.valid .lutNotValid
  return respond v s

/-- `LUT_RD` (R114): respond with one cumulative entry. -/
def execLutRd (idx : BitVec 9) (s : State) : Host.Outcome State Fault Refusal :=
  command s (lutRdRule idx s)

end Sys2Proof.Machine
end

