-- ==== Sys2Proof/Machine/Dispatch.lean ====
section
/-! DEFINITION. The dispatch of a decoded command to its meaning. -/

namespace Sys2Proof.Machine

def exec (i : Instr) (s : State) : Host.Outcome State Fault Refusal :=
  match i with
  | .nop => Sys2Proof.Machine.execNop s
  | .encInit => Sys2Proof.Machine.execEncInit s
  | .encSym m sym => Sys2Proof.Machine.execEncSym m sym s
  | .encFin => Sys2Proof.Machine.execEncFin s
  | .decInit => Sys2Proof.Machine.execDecInit s
  | .decSym m => Sys2Proof.Machine.execDecSym m s
  | .lutWfreq sym val => Sys2Proof.Machine.execLutWfreq sym val s
  | .lutRfreq sym => Sys2Proof.Machine.execLutRfreq sym s
  | .lutBuild => Sys2Proof.Machine.execLutBuild s
  | .lutRd idx => Sys2Proof.Machine.execLutRd idx s
  | .rdreg reg => Sys2Proof.Machine.execRdreg reg s

end Sys2Proof.Machine
end

