-- ==== Sys2Proof/Machine/Step.lean ====
section
/-! DEFINITION. One step of the machine: the core takes the host's next input and acts on it. -/

namespace Sys2Proof.Machine

/-- One step. The core waits while the host issues nothing (R275, R291); a reset takes effect between
two commands (R290); a word is checked and executed whole (R59, R60, R262). -/
def step (s : State) : Host.Outcome State Fault Refusal :=
  match takeInput s with
  | .idle => .next s
  | .reset t => .next t
  | .word w t =>
    match decode w with
    | .command i => exec i t
    | .illegal _ => execIllegal t

/-- The state whose next input is the opcode-table word `w`, presented with an empty `IN`. The core
fetches nothing (R21): its program is what the host issues. -/
def State.withFetchWord (s : State) (nbits w : Nat) : State :=
  issueNext (BitVec.ofNat 64 (w % 2 ^ nbits)) s

end Sys2Proof.Machine
end

