-- ==== Sys2Proof/Machine/Assembly.lean ====
section
/-! DEFINITION. The text of assembly (R89): one command a line, `;` to the end of the line is a comment,
numbers are decimal or `0x` hex, mnemonics are in lower case. `parseLine` reads a line, and
`assembleLine` gives its word; text that is no line of R89 is an assembly error and gives nothing. -/

namespace Sys2Proof.Machine

/-- What stands before a comment. -/
def dropComment (text : List Char) : List Char := text.takeWhile (· ≠ ';')

/-- A space, a tab or the comma between two operands. -/
def isSeparator (c : Char) : Bool := c = ' ' || c = '\t' || c = ','

/-- The words of a line; `current` holds the word being read, last character first. -/
def splitWords (current : List Char) : List Char → List (List Char)
  | [] => if current.isEmpty then [] else [current.reverse]
  | c :: cs =>
    if isSeparator c then
      if current.isEmpty then splitWords [] cs else current.reverse :: splitWords [] cs
    else splitWords (c :: current) cs

/-- The value of a digit, in any base up to 16. -/
def digitValue (c : Char) : Option Nat :=
  if '0' ≤ c ∧ c ≤ '9' then some (c.toNat - '0'.toNat)
  else if 'a' ≤ c ∧ c ≤ 'f' then some (c.toNat - 'a'.toNat + 10)
  else if 'A' ≤ c ∧ c ≤ 'F' then some (c.toNat - 'A'.toNat + 10)
  else none

/-- The number a list of digits of a base continues from `acc`. -/
def digitsFrom (base acc : Nat) : List Char → Option Nat
  | [] => some acc
  | c :: cs =>
    match digitValue c with
    | some d => if d < base then digitsFrom base (acc * base + d) cs else none
    | none => none

/-- A decimal or `0x` hex number. -/
def parseNumber : List Char → Option Nat
  | '0' :: 'x' :: c :: cs => digitsFrom 16 0 (c :: cs)
  | c :: cs => digitsFrom 10 0 (c :: cs)
  | [] => none

/-- `u` is the uniform table and `t` the built one. -/
def parseTable : List Char → Option TableSel
  | ['u'] => some .uniform
  | ['t'] => some .built
  | _ => none

/-- The registers by name (R38). -/
def regNames : List (List Char × RegName) :=
  [("STATUS".toList, .status), ("CONFIG".toList, .config), ("ENC_LOW".toList, .encLow),
   ("ENC_HIGH".toList, .encHigh), ("ENC_PENDING".toList, .encPending),
   ("ENC_BITS".toList, .encBits), ("ENC_OUTCNT".toList, .encOutcnt), ("DEC_LOW".toList, .decLow),
   ("DEC_HIGH".toList, .decHigh), ("DEC_CODE".toList, .decCode),
   ("DEC_BITPOS".toList, .decBitpos)]

/-- A register operand: a name of R38 or a number. -/
def parseRegister (word : List Char) : Option RegOperand :=
  match regNames.lookup word with
  | some r => some (.name r)
  | none => (parseNumber word).map .number

/-- The line of the words of a command (R89). -/
def parseWords : List (List Char) → Option AsmLine
  | [m] =>
    if m = "nop".toList then some .nop
    else if m = "enc.init".toList then some .encInit
    else if m = "enc.fin".toList then some .encFin
    else if m = "dec.init".toList then some .decInit
    else if m = "lut.build".toList then some .lutBuild
    else none
  | [m, a] =>
    if m = "dec.sym".toList then (parseTable a).map .decSym
    else if m = "lut.rfreq".toList then (parseNumber a).map .lutRfreq
    else if m = "lut.rd".toList then (parseNumber a).map .lutRd
    else if m = "rdreg".toList then (parseRegister a).map .rdreg
    else none
  | [m, a, b] =>
    if m = "enc.sym".toList then
      match parseTable a, parseNumber b with
      | some t, some n => some (.encSym t n)
      | _, _ => none
    else if m = "lut.wfreq".toList then
      match parseNumber a, parseNumber b with
      | some n, some v => some (.lutWfreq n v)
      | _, _ => none
    else none
  | _ => none

/-- The command a line of text stands for (R89). -/
def parseLine (text : String) : Option AsmLine :=
  parseWords (splitWords [] (dropComment text.toList))

/-- The command word of a line of text, if it is one (R89). -/
def assembleLine (text : String) : Option CmdWord := (parseLine text).bind AsmLine.assemble

end Sys2Proof.Machine
end

