-- ==== Sys2Proof/Machine/Protocol.lean ====
section
/-! DEFINITION. The host protocol of R70 to R73 as what a host issues on the command port. The protocol
binds the host, not the core; it is written here because the layout of a compressed stream follows from
it. -/

namespace Sys2Proof.Machine

/-- A command as the host issues it, presenting no byte sequence. -/
def issued (i : Instr) : HostInput := .command (encode i) []

/-- `freq[s]`, add-one smoothed (R72 step 1). -/
def smoothedFreq (data : List Byte) (sym : Nat) : Word :=
  BitVec.ofNat 32 (data.count (BitVec.ofNat 8 sym) + 1)

/-- The 256 frequencies of a byte sequence, in symbol order. -/
def smoothedFreqs (data : List Byte) : List Word := (List.range 256).map (smoothedFreq data)

/-- Load a table: 256 `LUT_WFREQ`, then `LUT_BUILD` (R72 step 2, R73 step 3). -/
def loadTable (freqs : List Word) : List Instr := writeFreqs 0 freqs ++ [.lutBuild]

/-- The header: the file length, then the 256 frequencies, each by R71 under the uniform table (R70). -/
def encodeHeader (data : List Byte) : List Instr :=
  (Pseudo.encU32 (BitVec.ofNat 32 data.length)).expand
    ++ (smoothedFreqs data).flatMap fun f => (Pseudo.encU32 f).expand

/-- The commands of the encode protocol, from the table load to `ENC_FIN` (R72 steps 2 to 6). -/
def encodeCommands (data : List Byte) : List Instr :=
  loadTable (smoothedFreqs data) ++ [Instr.encInit] ++ encodeHeader data
    ++ (Pseudo.encBytes .built data).expand ++ [Instr.encFin]

/-- The encode protocol (R72): the compressed stream is `OUT` after it. -/
def encodeProtocol (data : List Byte) : List HostInput := (encodeCommands data).map issued

/-- The commands that decode the header, 257 values under the uniform table (R73 step 2): 1028
responses follow. -/
def decodeHeaderCommands : List Instr := (List.replicate 257 Pseudo.decU32).flatMap Pseudo.expand

/-- The decode protocol up to the header (R73 steps 1 and 2). -/
def decodeHeader (stream : List Byte) : List HostInput :=
  .command (encode .decInit) stream :: decodeHeaderCommands.map issued

/-- The value of four responses, low byte first (R71). -/
def headerValue (r0 r1 r2 r3 : Word) : Word := r0 ||| r1 <<< 8 ||| r2 <<< 16 ||| r3 <<< 24

/-- The values of a list of responses, four at a time (R71). -/
def headerValues : List Word → List Word
  | r0 :: r1 :: r2 :: r3 :: rest => headerValue r0 r1 r2 r3 :: headerValues rest
  | _ => []

/-- The commands that decode the data, from the length and the frequencies the header gave (R73 steps
3 and 4). -/
def decodeDataCommands (length : Word) (freqs : List Word) : List Instr :=
  loadTable freqs ++ List.replicate length.toNat (Instr.decSym .built)

/-- The decode protocol after the header (R73 steps 3 and 4). -/
def decodeData (length : Word) (freqs : List Word) : List HostInput :=
  (decodeDataCommands length freqs).map issued

end Sys2Proof.Machine
end

