-- ==== Sys2Proof/Safety.lean ====
section
/-! DEFINITION. What a legal state and a safe run are, in the terms statements use: the invariants the
spec derives (R25, R26, R33, R37, R39, R113, R6), leading case 3 iterations (R167), the bits a session
has put (R54, R142), and running a list of commands. -/

namespace Sys2Proof.Machine

/-- `high - low ≥ 2^30 + 1` (R37, R39): the size of an interval after renormalization. -/
def Wide (low high : Word) : Prop := low.toNat + quarter + 1 ≤ high.toNat

/-- The invariant of the encoder. -/
structure Encoder.Inv (e : Encoder) : Prop where
  /-- R37: `ENC_LOW ≤ ENC_HIGH`. -/
  ordered : e.low.toNat ≤ e.high.toNat
  /-- R37: the size of the interval while symbols are accepted. -/
  wide : e.phase ≠ .finished → Wide e.low e.high
  /-- R25: `ENC_BITBUF[7:ENC_BITCNT]` is zero. -/
  held : e.bitBuf.toNat < 2 ^ e.bitCnt.toNat
  /-- R26, R291: only reset and `ENC_INIT` enter FRESH, and both set the Fresh registers. -/
  fresh : e.phase = .fresh → e = freshEncoder
  /-- R170: after `ENC_FIN` nothing is pending and nothing is held. -/
  finished : e.phase = .finished → e.pending = 0 ∧ e.bitCnt = 0

/-- The invariant of the decoder (R39). -/
structure Decoder.Inv (d : Decoder) : Prop where
  /-- `DEC_LOW ≤ DEC_CODE`. -/
  lowCode : d.active = true → d.low.toNat ≤ d.code.toNat
  /-- `DEC_CODE ≤ DEC_HIGH`. -/
  codeHigh : d.active = true → d.code.toNat ≤ d.high.toNat
  /-- `DEC_HIGH - DEC_LOW ≥ 2^30 + 1`. -/
  wide : d.active = true → Wide d.low d.high

/-- The shape of a table that symbols are looked up in: it starts at 0 and does not fall (R113, R204). -/
structure Table.Inv (tab : Table) : Prop where
  /-- `CUM[0] = 0`. -/
  first : tab[0] = 0
  /-- `CUM[i] ≤ CUM[i+1]` for `i` in 0..255. -/
  rising : ∀ (i : Nat) (h : i < 256), tab[i].toNat ≤ tab[i + 1].toNat

/-- The invariant of the whole state. -/
structure State.Inv (s : State) : Prop where
  enc : s.enc.Inv
  dec : s.dec.Inv
  /-- R113: a valid table is one that `LUT_BUILD` built. -/
  lut : s.lut.valid = true → Table.Inv s.lut.cum
  /-- R33: `FAULT_CODE` is 0 while `FAULT = 0`. -/
  noFault : s.fault = false → s.faultCode = 0
  /-- R33, R261: `FAULT_CODE` is one of the codes 0x01 to 0x09 while `FAULT = 1`. -/
  someFault : s.fault = true → 1 ≤ s.faultCode.toNat ∧ s.faultCode.toNat ≤ 9
  /-- R6: `MAX_TOTAL` is legal. -/
  maxTotal : Config.leastMaxTotal ≤ s.maxTotal.toNat ∧ s.maxTotal.toNat ≤ Config.greatestMaxTotal

/-- A safe state: a legal one with no fault recorded (R265: a faulted state may be taken as bad). -/
def State.Safe (s : State) : Prop := s.Inv ∧ s.fault = false

/-- The table a symbol command with select `m` uses (R118). -/
def selectedTable (s : State) : TableSel → Table
  | .uniform => ucum
  | .built => s.lut.cum

/-- The selected table may be used (R118): it is built, and its total is neither 0 nor above
`MAX_TOTAL`. -/
def Usable (s : State) (m : TableSel) : Prop :=
  (m = .built → s.lut.valid = true) ∧ 1 ≤ tableTotal (selectedTable s m) ∧
    tableTotal (selectedTable s m) ≤ s.maxTotal.toNat

/-! ### Leading case 3 iterations -/

/-- The bounds after `j` iterations of case 3 in a row: each subtracts `QUARTER` from both and shifts
(R167, R168). -/
def middleSteps (low high : Nat) : Nat → Nat × Nat
  | 0 => (low, high)
  | j + 1 =>
    let b := middleSteps low high j
    (2 * (b.1 - quarter), 2 * (b.2 - quarter) + 1)

/-- The condition of case 3, in full (R167). -/
abbrev InMiddle (b : Nat × Nat) : Prop :=
  quarter ≤ b.1 ∧ b.1 < half ∧ half ≤ b.2 ∧ b.2 < threeQuarter

/-- In the renormalization of `e` the pending counter fills: it reaches its limit after some number of
case 3 iterations that lead the loop, and case 3 applies again (R167). -/
def Encoder.Fills (e : Encoder) : Prop :=
  ∃ j, e.pending.toNat + j = Config.pendingLimit ∧
    ∀ i ≤ j, InMiddle (middleSteps e.low.toNat e.high.toNat i)

/-! ### The bits of a session -/

/-- The bits of a byte, most significant first (R53). -/
def byteBits (b : Byte) : List Bool := (List.range 8).map fun k => b.getLsbD (7 - k)

/-- The bits the sink holds, the earliest first (R25). -/
def heldBits (e : Encoder) : List Bool :=
  (List.range e.bitCnt.toNat).map fun k => e.bitBuf.getLsbD (e.bitCnt.toNat - 1 - k)

/-- Every bit put since the session began (R54). -/
def sinkBits (e : Encoder) : List Bool := e.out.flatMap byteBits ++ heldBits e

/-- The number a list of bits writes, the first the most significant. -/
def bitsValue (bits : List Bool) : Nat := bits.foldl (fun v b => 2 * v + b.toNat) 0

/-- Where the point `x` of the encoder's interval stands in the whole code space of the session: the
bits put so far, then the pending bits, then the 32 bits of `x`. With `p` pending bits the interval is
the middle one that `p` steps of case 3 have doubled, so `x` stands `(2^p - 1) * HALF` higher. -/
def codePoint (e : Encoder) (x : Nat) : Nat :=
  bitsValue (sinkBits e) * 2 ^ (e.pending.toNat + 32) + (2 ^ e.pending.toNat - 1) * half + x

/-- How many renormalization steps a session has taken: each puts a bit or makes one pending (R210). -/
def shiftCount (e : Encoder) : Nat := (sinkBits e).length + e.pending.toNat

/-! ### Running commands -/

/-- Execute a list of commands, one after the other (R60). -/
def runCommands : List Instr → State → Host.Outcome State Fault Refusal
  | [], s => .next s
  | i :: is, s =>
    match exec i s with
    | .next t => runCommands is t
    | .fault f => .fault f
    | .refused r => .refused r

end Sys2Proof.Machine
end

