-- ==== Sys2Proof/Certificates/Slice0/Obligations.lean ====
section
/-! DEFINITION. The statements about the core, for the provers. Each docstring names the rule of the
spec it formalises. A frame is written as an equation: `t = { s with enc := t.enc }` says that every
part of the state but the encoder is unchanged. The number of a fault code is the one of R261. -/

open Sys2Proof Sys2Proof.Machine

/-! ## Encoding -/

/-- R82, R83, R86: the word the encoder writes for a command decodes to that command, with every
operand at every value of its field. -/
def Obligations.DecodeOfEncode : Prop :=
  ∀ i : Instr, decode (encode i) = .command i

/-- R85, R86: a word that decodes to a command is the word of that command, so no two words mean the
same and no bit of a word is ignored. -/
def Obligations.EncodeOfDecode : Prop :=
  ∀ (w : CmdWord) (i : Instr), decode w = .command i → encode i = w

/-- R81, R82, R84, R87: a word is illegal exactly when its opcode is above 0x0A or a bit outside the
fields of its format is 1. The reserved bits are those of the format table of R82. -/
def Obligations.IllegalExactlyReserved : Prop :=
  ∀ w : CmdWord, (∃ why, decode w = .illegal why) ↔
    let op := (w.extractLsb' 0 8).toNat
    0x0A < op ∨
    (op = 0x00 ∨ op = 0x01 ∨ op = 0x03 ∨ op = 0x04 ∨ op = 0x08) ∧ w.extractLsb' 8 56 ≠ 0 ∨
    (op = 0x02 ∨ op = 0x09) ∧ w.extractLsb' 17 47 ≠ 0 ∨
    op = 0x05 ∧ (w.extractLsb' 17 47 ≠ 0 ∨ w.extractLsb' 8 8 ≠ 0) ∨
    op = 0x06 ∧ w.extractLsb' 16 16 ≠ 0 ∨
    (op = 0x07 ∨ op = 0x0A) ∧ w.extractLsb' 16 48 ≠ 0

/-- R83: each operand of a decoded command is its field of the word, with no extension, scaling or
shift; the opcode is the one of the command's row. -/
def Obligations.OperandsAreTheFields : Prop :=
  ∀ (w : CmdWord) (i : Instr), decode w = .command i →
    match i with
    | .nop => w.extractLsb' 0 8 = 0x00
    | .encInit => w.extractLsb' 0 8 = 0x01
    | .encSym m sym => w.extractLsb' 0 8 = 0x02 ∧ (m = .built ↔ w.getLsbD 16 = true) ∧
        sym.toNat = (w.extractLsb' 8 8).toNat
    | .encFin => w.extractLsb' 0 8 = 0x03
    | .decInit => w.extractLsb' 0 8 = 0x04
    | .decSym m => w.extractLsb' 0 8 = 0x05 ∧ (m = .built ↔ w.getLsbD 16 = true)
    | .lutWfreq sym val => w.extractLsb' 0 8 = 0x06 ∧
        sym.toNat = (w.extractLsb' 8 8).toNat ∧ val.toNat = (w.extractLsb' 32 32).toNat
    | .lutRfreq sym => w.extractLsb' 0 8 = 0x07 ∧ sym.toNat = (w.extractLsb' 8 8).toNat
    | .lutBuild => w.extractLsb' 0 8 = 0x08
    | .lutRd idx => w.extractLsb' 0 8 = 0x09 ∧ idx.toNat = (w.extractLsb' 8 9).toNat
    | .rdreg reg => w.extractLsb' 0 8 = 0x0A ∧ reg.toNat = (w.extractLsb' 8 8).toNat

/-- R88: the worked encodings. The spec marks the table as derived from R82 to R85. -/
def Obligations.WorkedEncodings : Prop :=
  decode 0x0000000000000000 = .command .nop ∧
  decode 0x0000000000000001 = .command .encInit ∧
  decode 0x0000000000014102 = .command (.encSym .built 0x41) ∧
  decode 0x000000000000FF02 = .command (.encSym .uniform 0xFF) ∧
  decode 0x0000000000000003 = .command .encFin ∧
  decode 0x0000000000000004 = .command .decInit ∧
  decode 0x0000000000000005 = .command (.decSym .uniform) ∧
  decode 0x0000000000010005 = .command (.decSym .built) ∧
  decode 0x0000000500004106 = .command (.lutWfreq 0x41 5) ∧
  decode 0xFFFFFFFF00000006 = .command (.lutWfreq 0 0xFFFFFFFF) ∧
  decode 0x0000000000000707 = .command (.lutRfreq 7) ∧
  decode 0x0000000000000008 = .command .lutBuild ∧
  decode 0x0000000000010009 = .command (.lutRd 256) ∧
  decode 0x000000000000000A = .command (.rdreg 0x00) ∧
  decode 0x000000000000090A = .command (.rdreg 0x09) ∧
  decode 0x0000000000000105 = .illegal .reservedBit ∧
  decode 0x000000000000000B = .illegal .reservedOpcode ∧
  decode 0x0000000000010109 = .command (.lutRd 257)

/-- R89, R38: a line of assembly gives the word of its command, and each operand of the decoded command
is the number written: `<sym>` in 0..255, `<val>` in 0..2^32-1, `<idx>` in 0..511, `<reg>` in 0..255 or a
name, which stands for its number of R38. An operand outside its range is an assembly error and gives no
word. -/
def Obligations.AssemblerChecksOperands : Prop :=
  ∀ line : AsmLine,
    let gives := fun i : Instr => ∃ w, line.assemble = some w ∧ decode w = .command i
    match line with
    | .nop => gives .nop
    | .encInit => gives .encInit
    | .encSym m sym =>
      if sym < 256 then ∃ x : Byte, gives (.encSym m x) ∧ x.toNat = sym
      else line.assemble = none
    | .encFin => gives .encFin
    | .decInit => gives .decInit
    | .decSym m => gives (.decSym m)
    | .lutWfreq sym val =>
      if sym < 256 ∧ val < 4294967296 then
        ∃ (x : Byte) (v : Word), gives (.lutWfreq x v) ∧ x.toNat = sym ∧ v.toNat = val
      else line.assemble = none
    | .lutRfreq sym =>
      if sym < 256 then ∃ x : Byte, gives (.lutRfreq x) ∧ x.toNat = sym
      else line.assemble = none
    | .lutBuild => gives .lutBuild
    | .lutRd idx =>
      if idx < 512 then ∃ x : BitVec 9, gives (.lutRd x) ∧ x.toNat = idx
      else line.assemble = none
    | .rdreg (.number n) =>
      if n < 256 then ∃ x : Byte, gives (.rdreg x) ∧ x.toNat = n
      else line.assemble = none
    | .rdreg (.name r) =>
      ∃ x : Byte, gives (.rdreg x) ∧ x.toNat = (match r with
        | .status => 0x00
        | .config => 0x01
        | .encLow => 0x02
        | .encHigh => 0x03
        | .encPending => 0x04
        | .encBits => 0x05
        | .encOutcnt => 0x06
        | .decLow => 0x07
        | .decHigh => 0x08
        | .decCode => 0x09
        | .decBitpos => 0x0A)

/-! ## Steps, reset and faults -/

/-- R60, R86: when the word at the head of the command port decodes to a command, a step executes that
command, in the state with the word taken off the port and its byte sequence presented. That the port
is a queue of the state is the model's choice (log entry 2). -/
def Obligations.StepExecutesIssuedCommand : Prop :=
  ∀ (s : State) (w : CmdWord) (stream : List Byte) (rest : List HostInput) (i : Instr),
    s.pending = .command w stream :: rest → decode w = .command i →
    step s = exec i { s with pending := rest, inPort := stream }

/-- R87, R262, R264: an illegal word raises `ILLEGAL_CMD`, whose code is 0x01, when no fault is
recorded. The queue of the port is the model's choice (log entry 2). -/
def Obligations.StepFaultsIllegalWord : Prop :=
  ∀ (s : State) (w : CmdWord) (stream : List Byte) (rest : List HostInput) (why : IllegalReason),
    s.pending = .command w stream :: rest → decode w = .illegal why → s.fault = false →
    step s = .next { s with
      pending := rest, inPort := stream, fault := true, faultCode := 0x01 }

/-- R36: the state after reset, for an instance of any `MAX_TOTAL`. -/
def Obligations.ResetStateValues : Prop :=
  ∀ maxTotal : Word,
    let s := State.resetWith maxTotal
    s.enc.low = 0 ∧ s.enc.high = 0xFFFFFFFF ∧ s.enc.pending = 0 ∧ s.enc.bitBuf = 0 ∧
    s.enc.bitCnt = 0 ∧ s.enc.phase = .fresh ∧ s.enc.out = [] ∧
    s.dec.low = 0 ∧ s.dec.high = 0xFFFFFFFF ∧ s.dec.code = 0 ∧ s.dec.bitPos = 0 ∧
    s.dec.active = false ∧ s.dec.input = [] ∧
    (∀ i : Byte, readFreq s.lut i = 0) ∧ s.lut.valid = false ∧
    s.fault = false ∧ s.faultCode = 0 ∧ s.rsp = []

/-- R290, R292: whatever the state, a step that takes a reset off the port gives every register its value
of R36, with `MAX_TOTAL` unchanged; a word issued while `rst` is asserted is not executed. The model's
own choices in it: that the port is a queue, whose further inputs are untouched (log entry 2), that `CUM`,
which R36 leaves unspecified, becomes all 0 (log entry 1), and that `inPort` is emptied (log entry 8). -/
def Obligations.ResetEventFromEveryState : Prop :=
  ∀ (s : State) (word : Option CmdWord) (rest : List HostInput),
    s.pending = .reset word :: rest →
    step s = .next { State.resetWith s.maxTotal with pending := rest }

/-- R275, R291: with nothing issued the core holds its state. -/
def Obligations.IdleHoldsState : Prop :=
  ∀ s : State, s.pending = [] → step s = .next s

/-- R264: a command that raises a fault leaves every part of the state as it was before the command
began, with the fault and its code recorded; the fault output rises. It holds of every command and of
an illegal word, and of each fault code a command's rule may raise. -/
def Obligations.FaultEntryIsPrecise : Prop :=
  (∀ (i : Instr) (s t : State), s.fault = false → exec i s = .next t → t.fault = true →
    t = { s with fault := true, faultCode := t.faultCode } ∧
    1 ≤ t.faultCode.toNat ∧ t.faultCode.toNat ≤ 9 ∧ faultOut t = true) ∧
  (∀ s : State, s.fault = false →
    execIllegal s = .next { s with fault := true, faultCode := 0x01 }) ∧
  ∀ (s : State) (c : FaultCode), s.fault = false →
    command s (.error (.raise c)) = .next { s with
      fault := true
      faultCode := match c with
        | .illegalCmd => 0x01
        | .encFinished => 0x02
        | .decNotActive => 0x03
        | .lutNotValid => 0x04
        | .badTotal => 0x05
        | .zeroFreq => 0x06
        | .lutOverflow => 0x07
        | .pendingOverflow => 0x08
        | .badIndex => 0x09 }

/-- R265: while `FAULT = 1` a word does nothing but leave the port, unless it is a legal `RDREG`, which
responds; the fault recorded stays the first one. That the word leaves a queue of the state and its
presented byte sequence stands in `inPort` is the model's choice (log entry 2). -/
def Obligations.FaultedCoreDiscardsWords : Prop :=
  ∀ (s : State) (w : CmdWord) (stream : List Byte) (rest : List HostInput),
    s.fault = true → s.pending = .command w stream :: rest →
    let t := { s with pending := rest, inPort := stream }
    (∀ reg : Byte, decode w = .command (.rdreg reg) → reg.toNat ≤ 0x0A →
      ∃ v, regValue s reg = some v ∧ step s = .next { t with rsp := s.rsp ++ [v] }) ∧
    ((∀ reg : Byte, decode w = .command (.rdreg reg) → 0x0A < reg.toNat) → step s = .next t)

/-- R266: only reset clears a fault, and it re-initialises every other register. Faults do not nest: a
step that is no reset keeps the code of the first. The model's own choices in it: the queue of the port
(log entry 2), that `CUM` becomes all 0 (log entry 1), and that `inPort` is emptied (log entry 8). -/
def Obligations.OnlyResetLeavesFault : Prop :=
  ∀ s t : State, s.fault = true → step s = .next t →
    (∃ (word : Option CmdWord) (rest : List HostInput), s.pending = .reset word :: rest ∧
      t = { State.resetWith s.maxTotal with pending := rest }) ∨
    (t.fault = true ∧ t.faultCode = s.faultCode)

/-- R6, R292: no step changes `MAX_TOTAL`, not even a reset, and `CONFIG` reads it before and after.
`PENDING_W` is the width of a type. -/
def Obligations.MaxTotalIsConstant : Prop :=
  ∀ s t : State, step s = .next t →
    t.maxTotal = s.maxTotal ∧ regValue t 0x01 = some s.maxTotal

/-! ## Invariants -/

/-- R6, R25, R26, R33, R36: the state after reset is legal, for every legal `MAX_TOTAL`, and so is the
default one. -/
def Obligations.ResetStateIsLegal : Prop :=
  State.reset.Inv ∧
  ∀ maxTotal : Word, Config.leastMaxTotal ≤ maxTotal.toNat →
    maxTotal.toNat ≤ Config.greatestMaxTotal → (State.resetWith maxTotal).Inv

/-- R25, R26, R33, R37, R39, R113: every step keeps a legal state legal, whatever the host issues. The
interval bounds of R37 and R39 are the spec's own derivation. -/
def Obligations.StepKeepsStateLegal : Prop :=
  ∀ s t : State, s.Inv → step s = .next t → t.Inv

/-- R169, R203, R204: from a legal state the core always goes on: no renormalization loop runs out of
its iterations, no symbol search fails and no arithmetic leaves its range. The loop bound is the
spec's own derivation. -/
def Obligations.LegalStateNeverStops : Prop :=
  ∀ s : State, s.Inv → ∃ t, step s = .next t

/-! ## Frames over all commands -/

/-- R22 to R34, R292, R295: which unit each command may change when no fault is raised. The encoder
commands change only the encoder, the decoder commands the decoder and the responses, the table
commands the tables or the responses; no command changes `MAX_TOTAL` or what the host issues. -/
def Obligations.CommandsChangeOnlyTheirUnit : Prop :=
  ∀ (i : Instr) (s t : State), exec i s = .next t → t.fault = false →
    match i with
    | .nop => t = s
    | .encInit => t = { s with enc := t.enc }
    | .encSym _ _ => t = { s with enc := t.enc }
    | .encFin => t = { s with enc := t.enc }
    | .decInit => t = { s with dec := t.dec }
    | .decSym _ => t = { s with dec := t.dec, rsp := t.rsp }
    | .lutWfreq _ _ => t = { s with lut := { s.lut with freq := t.lut.freq } }
    | .lutRfreq _ => t = { s with rsp := t.rsp }
    | .lutBuild => t = { s with lut := { s.lut with cum := t.lut.cum, valid := true } }
    | .lutRd _ => t = { s with rsp := t.rsp }
    | .rdreg _ => t = { s with rsp := t.rsp }

/-- R27, R55: `OUT` is append-only. Only `ENC_INIT` empties it; after any other command what it held is
still its beginning. -/
def Obligations.OutIsAppendOnly : Prop :=
  ∀ (i : Instr) (s t : State), exec i s = .next t →
    (i = .encInit ∧ s.fault = false ∧ t.enc.out = []) ∨ s.enc.out <+: t.enc.out

/-- R34, R57: a command appends one word to `RSP` if it is one of the four responding commands and
raises no fault, and nothing otherwise. While a fault is recorded only a legal `RDREG` responds. -/
def Obligations.ResponsesAreOnePerCommand : Prop :=
  ∀ (i : Instr) (s t : State), exec i s = .next t →
    match i with
    | .decSym _ | .lutRfreq _ | .lutRd _ =>
      if t.fault = false then ∃ v, t.rsp = s.rsp ++ [v] else t.rsp = s.rsp
    | .rdreg reg => if reg.toNat ≤ 0x0A then ∃ v, t.rsp = s.rsp ++ [v] else t.rsp = s.rsp
    | _ => t.rsp = s.rsp

/-- R59: a read may be repeated. The second `RDREG`, `LUT_RD` or `LUT_RFREQ` in a row that responds
responds with the same word. -/
def Obligations.RepeatedReadGivesSameWord : Prop :=
  ∀ (i : Instr) (s t u : State) (v w : Word),
    (∃ reg, i = .rdreg reg) ∨ (∃ idx, i = .lutRd idx) ∨ (∃ sym, i = .lutRfreq sym) →
    exec i s = .next t → t.rsp = s.rsp ++ [v] → exec i t = .next u → u.rsp = t.rsp ++ [w] → v = w

/-- R29, R36: while `LUT_VALID = 0` no command reads `CUM`. With other entries in the unbuilt table a
command has the same effect, and the entries stay unless it builds the table. So the reset value the
model gives `CUM` (log entry 1) shows nowhere. -/
def Obligations.UnbuiltTableIsNeverRead : Prop :=
  ∀ (i : Instr) (s : State) (cum : Table), s.lut.valid = false →
    exec i { s with lut := { s.lut with cum := cum } } =
      match exec i s with
      | .next t =>
        .next { t with lut := { t.lut with cum := if t.lut.valid then t.lut.cum else cum } }
      | .fault f => .fault f
      | .refused r => .refused r

/-! ## Control commands -/

/-- R240: `NOP` leaves the whole state unchanged, also while a fault is recorded. Its only encoding is
the all-zero word, and any other word with its opcode is illegal. -/
def Obligations.NopChangesNothing : Prop :=
  (∀ s : State, exec .nop s = .next s) ∧
  ∀ w : CmdWord, (decode w = .command .nop ↔ w = 0) ∧
    (w.extractLsb' 0 8 = 0x00 → w ≠ 0 → ∃ why, decode w = .illegal why)

/-- R242, R38: `RDREG` responds with the register its number names, also while a fault is recorded,
and changes nothing else; reserved bits read 0. A number above 0x0A raises `BAD_INDEX` (0x09), or is
discarded while a fault is recorded. The encoding is format X with opcode 0x0A. -/
def Obligations.RdregRespondsWithRegisterMap : Prop :=
  (∀ reg : Byte, decode ((0 : BitVec 48) ++ reg ++ (0x0A : BitVec 8)) = .command (.rdreg reg)) ∧
  (∀ (s : State) (reg : Byte), 0x0A < reg.toNat →
    exec (.rdreg reg) s =
      if s.fault then .next s else .next { s with fault := true, faultCode := 0x09 }) ∧
  ∀ (s : State) (reg : Byte), reg.toNat ≤ 0x0A →
    ∃ v, exec (.rdreg reg) s = .next { s with rsp := s.rsp ++ [v] } ∧
    (reg = 0x00 →
      (v.extractLsb' 0 2).toNat = (match s.enc.phase with
        | .fresh => 0
        | .encoding => 1
        | .finished => 2) ∧
      v.getLsbD 2 = s.dec.active ∧ v.getLsbD 3 = s.lut.valid ∧ v.getLsbD 4 = s.fault ∧
      v.extractLsb' 5 3 = 0 ∧ v.extractLsb' 8 8 = s.faultCode ∧ v.extractLsb' 16 16 = 0) ∧
    (reg = 0x01 → v = s.maxTotal) ∧
    (reg = 0x02 → v = s.enc.low) ∧
    (reg = 0x03 → v = s.enc.high) ∧
    (reg = 0x04 → v = s.enc.pending) ∧
    (reg = 0x05 → v.extractLsb' 0 8 = s.enc.bitBuf ∧ v.extractLsb' 8 3 = s.enc.bitCnt ∧
      v.extractLsb' 11 21 = 0) ∧
    (reg = 0x06 → v.toNat = s.enc.out.length % 2 ^ 32) ∧
    (reg = 0x07 → v = s.dec.low) ∧
    (reg = 0x08 → v = s.dec.high) ∧
    (reg = 0x09 → v = s.dec.code) ∧
    (reg = 0x0A → v.toNat = s.dec.bitPos % 2 ^ 32)

/-! ## Table commands -/

/-- R110: `LUT_WFREQ` writes one entry of `FREQ` and nothing else: no other entry, not `CUM`, not
`LUT_VALID`, and no other part of the state. The encoding is format W with opcode 0x06. -/
def Obligations.WfreqWritesOneEntry : Prop :=
  (∀ (sym : Byte) (val : Word),
    decode (val ++ (0 : BitVec 16) ++ sym ++ (0x06 : BitVec 8)) = .command (.lutWfreq sym val)) ∧
  ∀ (s : State) (sym : Byte) (val : Word), s.fault = false →
    ∃ t, exec (.lutWfreq sym val) s = .next t ∧ readFreq t.lut sym = val ∧
      (∀ j, j ≠ sym → readFreq t.lut j = readFreq s.lut j) ∧
      t = { s with lut := { s.lut with freq := t.lut.freq } }

/-- R110, R111: after `LUT_WFREQ` an `LUT_RFREQ` responds with the written value at the written index
and with the old entry at any other; after reset it responds with 0. The encoding is format X with
opcode 0x07. -/
def Obligations.RfreqRespondsWithEntry : Prop :=
  (∀ sym : Byte, decode ((0 : BitVec 48) ++ sym ++ (0x07 : BitVec 8)) = .command (.lutRfreq sym)) ∧
  (∀ (maxTotal : Word) (j : Byte), readFreq (State.resetWith maxTotal).lut j = 0) ∧
  ∀ (s t : State) (sym j : Byte) (val : Word), s.fault = false →
    exec (.lutRfreq j) s = .next { s with rsp := s.rsp ++ [readFreq s.lut j] } ∧
    (exec (.lutWfreq sym val) s = .next t →
      exec (.lutRfreq j) t =
        .next { t with rsp := t.rsp ++ [if j = sym then val else readFreq s.lut j] })

/-- R112: when the frequencies sum to at most 2^32 - 1, `LUT_BUILD` replaces the whole table by the
prefix sums and sets `LUT_VALID`; `FREQ` and every other part of the state are unchanged. When they sum
to more, it raises `LUT_OVERFLOW` (0x07) and the table and `LUT_VALID` keep their values. The encoding
is format N with opcode 0x08. -/
def Obligations.BuildGivesPrefixSums : Prop :=
  decode 0x0000000000000008 = .command .lutBuild ∧
  ∀ s : State, s.fault = false →
    if (s.lut.freq.toList.map BitVec.toNat).sum ≤ 0xFFFFFFFF then
      ∃ t, exec .lutBuild s = .next t ∧ t.lut.valid = true ∧ t.lut.cum[0] = 0 ∧
        (∀ (i : Nat) (h : i < 256),
          t.lut.cum[i + 1].toNat = t.lut.cum[i].toNat + s.lut.freq[i].toNat) ∧
        t.lut.cum[256].toNat = (s.lut.freq.toList.map BitVec.toNat).sum ∧
        t = { s with lut := { s.lut with cum := t.lut.cum, valid := true } }
    else exec .lutBuild s = .next { s with fault := true, faultCode := 0x07 }

/-- R114: `LUT_RD` responds with the entry its index names, checks the index before `LUT_VALID`, and
raises `BAD_INDEX` (0x09) or `LUT_NOT_VALID` (0x04). Entry 0 of any built table is 0. The encoding is
format I with opcode 0x09. -/
def Obligations.LutRdRespondsOrFaults : Prop :=
  (∀ idx : BitVec 9, decode ((0 : BitVec 47) ++ idx ++ (0x09 : BitVec 8)) = .command (.lutRd idx)) ∧
  (∀ s : State, s.Inv → s.fault = false → s.lut.valid = true →
    exec (.lutRd 0) s = .next { s with rsp := s.rsp ++ [0] }) ∧
  ∀ (s : State) (idx : BitVec 9), s.fault = false →
    (∀ h : idx.toNat < 257, s.lut.valid = true →
      exec (.lutRd idx) s = .next { s with rsp := s.rsp ++ [s.lut.cum[idx.toNat]] }) ∧
    (idx.toNat < 257 → s.lut.valid = false →
      exec (.lutRd idx) s = .next { s with fault := true, faultCode := 0x04 }) ∧
    (257 ≤ idx.toNat →
      exec (.lutRd idx) s = .next { s with fault := true, faultCode := 0x09 })

/-- R90, R110, R112, R117, R293: the expansion of `lut.load` writes all 256 frequencies (R110) and builds
their prefix sums (R112), from any state with no fault, when they sum to at most 2^32 - 1; only the
tables change. That of `lut.uniform` builds the uniform table, whose entry `i` is `i` (R117). -/
def Obligations.LutLoadBuildsItsTable : Prop :=
  (∀ (i : Nat) (h : i < 257), ucum[i].toNat = i) ∧
  (∀ s : State, s.fault = false →
    ∃ t, runCommands Pseudo.lutUniform.expand s = .next t ∧ t.lut.cum = ucum ∧
      t.lut.valid = true) ∧
  ∀ (s : State) (freqs : Vector Word 256), s.fault = false →
    (freqs.toList.map BitVec.toNat).sum ≤ 0xFFFFFFFF →
    ∃ t, runCommands (Pseudo.lutLoad freqs).expand s = .next t ∧ t.lut.freq = freqs ∧
      t.lut.valid = true ∧ t.lut.cum[0] = 0 ∧
      (∀ (i : Nat) (h : i < 256),
        t.lut.cum[i + 1].toNat = t.lut.cum[i].toNat + freqs[i].toNat) ∧
      t = { s with lut := t.lut }

/-- R204: on a table that starts at 0 and does not fall, and for a value below its total, the search
answers a symbol exactly when the value lies between the symbol's two entries; then the entry after it
is the first one above the value, and the symbol's frequency is at least 1. -/
def Obligations.FindSymbolIsTheInverse : Prop :=
  ∀ (tab : Table) (value : Nat), Table.Inv tab → value < tableTotal tab →
    (∃ sym, findSymbol tab value = .ok sym) ∧
    ∀ sym : Byte,
      (findSymbol tab value = .ok sym ↔ cumLow tab sym ≤ value ∧ value < cumNext tab sym) ∧
      (findSymbol tab value = .ok sym →
        (∀ (j : Nat) (h : j < 257), j ≤ sym.toNat → tab[j].toNat ≤ value) ∧
        1 ≤ cumNext tab sym - cumLow tab sym)

/-! ## Bit streams -/

/-- R142: whatever bits are put into an empty sink, flushing it leaves `ceil(n / 8)` bytes whose bits
are the bits put, in order, then zeros. The spec marks the rule as its own derivation. -/
def Obligations.SinkCorrespondence : Prop :=
  ∀ (bits : List Bool) (e : Encoder), e.out = [] → e.bitCnt = 0 →
    let t := sinkFlush (bits.foldl (fun e b => sinkPut b e) e)
    t.out.length = (bits.length + 7) / 8 ∧ ∀ k, streamBit t.out k = bits.getD k false

/-- R145, R200: `DEC_INIT` captures the byte sequence the host presents, reads its first 32 bits into
`DEC_CODE`, the first into bit 31 and zeros past the end, and starts the session; nothing else
changes. The encoding is format N with opcode 0x04. -/
def Obligations.DecInitReadsFirstBits : Prop :=
  decode 0x0000000000000004 = .command .decInit ∧
  ∀ s : State, s.fault = false →
    ∃ t, exec .decInit s = .next t ∧ t.dec.low = 0 ∧ t.dec.high = 0xFFFFFFFF ∧
      t.dec.bitPos = 32 ∧ t.dec.active = true ∧ t.dec.input = s.inPort ∧
      (∀ k < 32, t.dec.code.getLsbD (31 - k) = streamBit s.inPort k) ∧
      t = { s with dec := t.dec }

/-! ## Encoder commands -/

/-- R160: `ENC_INIT` begins a new session in every phase and touches nothing but the encoder. The
encoding is format N with opcode 0x01. -/
def Obligations.EncInitStartsFresh : Prop :=
  decode 0x0000000000000001 = .command .encInit ∧
  ∀ s : State, s.fault = false →
    ∃ t, exec .encInit s = .next t ∧ t.enc.low = 0 ∧ t.enc.high = 0xFFFFFFFF ∧
      t.enc.pending = 0 ∧ t.enc.bitBuf = 0 ∧ t.enc.bitCnt = 0 ∧ t.enc.out = [] ∧
      t.enc.phase = .fresh ∧ t = { s with enc := t.enc }

/-- R161, R37, R169: on a legal state, with the encoder not finished, a usable table, a symbol of
frequency at least 1 and room for 32 more pending bits, `ENC_SYM` completes: only the encoder changes,
it is ENCODING, and its interval is renormalized (case 4 of R168 holds). -/
def Obligations.EncSymCompletes : Prop :=
  ∀ (s : State) (m : TableSel) (sym : Byte), s.Inv → s.fault = false →
    s.enc.phase ≠ .finished → Usable s m →
    cumLow (selectedTable s m) sym < cumNext (selectedTable s m) sym →
    s.enc.pending.toNat + 32 ≤ 0xFFFFFFFF →
    ∃ t, exec (.encSym m sym) s = .next t ∧ t.fault = false ∧ t.enc.phase = .encoding ∧
      t.enc.low.toNat < half ∧ half ≤ t.enc.high.toNat ∧
      (t.enc.low.toNat < quarter ∨ threeQuarter ≤ t.enc.high.toNat) ∧
      sinkBits s.enc <+: sinkBits t.enc ∧ t = { s with enc := t.enc }

/-- R161, R164, R167: on a legal state, with the pending counter anywhere, `ENC_SYM` of a usable symbol
raises `PENDING_OVERFLOW` (0x08) exactly when the counter fills: it reaches 2^32 - 1 after some number
`j` of case 3 iterations that lead the loop from the narrowed interval, and case 3 applies again. With
`j = 0` the counter is at its limit from the start. Otherwise it completes. -/
def Obligations.EncSymOverflowsAtTheLimit : Prop :=
  ∀ (s : State) (m : TableSel) (sym : Byte), s.Inv → s.fault = false →
    s.enc.phase ≠ .finished → Usable s m →
    cumLow (selectedTable s m) sym < cumNext (selectedTable s m) sym →
    let range := s.enc.high.toNat - s.enc.low.toNat + 1
    let low := s.enc.low.toNat + range * cumLow (selectedTable s m) sym
      / tableTotal (selectedTable s m)
    let high := s.enc.low.toNat + range * cumNext (selectedTable s m) sym
      / tableTotal (selectedTable s m) - 1
    let fills := ∃ j, s.enc.pending.toNat + j = 0xFFFFFFFF ∧
      ∀ i ≤ j, InMiddle (middleSteps low high i)
    (fills → exec (.encSym m sym) s = .next { s with fault := true, faultCode := 0x08 }) ∧
    (¬ fills → ∃ t, exec (.encSym m sym) s = .next t ∧ t.fault = false ∧
      t.enc.phase = .encoding ∧ t = { s with enc := t.enc })

/-- R161, R118, R263: the faults of `ENC_SYM` in their order, before the arithmetic begins:
`ENC_FINISHED` (0x02), `LUT_NOT_VALID` (0x04), `BAD_TOTAL` (0x05), `ZERO_FREQ` (0x06). -/
def Obligations.EncSymFaultsInOrder : Prop :=
  ∀ (s : State) (m : TableSel) (sym : Byte), s.fault = false →
    if s.enc.phase = .finished then
      exec (.encSym m sym) s = .next { s with fault := true, faultCode := 0x02 }
    else if m = .built ∧ s.lut.valid = false then
      exec (.encSym m sym) s = .next { s with fault := true, faultCode := 0x04 }
    else if tableTotal (selectedTable s m) = 0 ∨
        s.maxTotal.toNat < tableTotal (selectedTable s m) then
      exec (.encSym m sym) s = .next { s with fault := true, faultCode := 0x05 }
    else cumNext (selectedTable s m) sym = cumLow (selectedTable s m) sym →
      exec (.encSym m sym) s = .next { s with fault := true, faultCode := 0x06 }

/-- R143, R163 to R168: encoding is exact. With `k` renormalization steps, the bits put, the pending
bits and the bounds after `ENC_SYM` denote exactly the sub-interval that `Narrow` gives the symbol,
magnified by `2^k`, and `k` is the number of bits put or made pending. No carry is lost and no emitted
bit is revised. -/
def Obligations.EncSymIsExact : Prop :=
  ∀ (s t : State) (m : TableSel) (sym : Byte), s.Inv → s.fault = false →
    exec (.encSym m sym) s = .next t → t.fault = false →
    let tab := selectedTable s m
    let range := s.enc.high.toNat - s.enc.low.toNat + 1
    ∃ k ≤ 32, shiftCount t.enc = shiftCount s.enc + k ∧
      codePoint t.enc t.enc.low.toNat = 2 ^ k *
        codePoint s.enc (s.enc.low.toNat + range * cumLow tab sym / tableTotal tab) ∧
      codePoint t.enc (t.enc.high.toNat + 1) = 2 ^ k *
        codePoint s.enc (s.enc.low.toNat + range * cumNext tab sym / tableTotal tab)

/-- R171: from the full interval with nothing pending, a uniform symbol puts exactly its eight bits,
most significant first, and returns to the full interval with nothing pending. The spec marks the rule
as its own derivation. -/
def Obligations.UniformSymbolPutsItsByte : Prop :=
  ∀ (s : State) (sym : Byte), s.fault = false → s.enc.phase ≠ .finished →
    256 ≤ s.maxTotal.toNat → s.enc.low = 0 → s.enc.high = 0xFFFFFFFF → s.enc.pending = 0 →
    ∃ t, exec (.encSym .uniform sym) s = .next t ∧ t.enc.low = 0 ∧ t.enc.high = 0xFFFFFFFF ∧
      t.enc.pending = 0 ∧ t.enc.phase = .encoding ∧
      sinkBits t.enc = sinkBits s.enc ++ byteBits sym ∧
      t = { s with enc := t.enc }

/-- R170, R141, R143: `ENC_FIN` puts 0 or 1 by `ENC_LOW < QUARTER`, then the pending bits and one more,
each the complement, and pads the last byte with zeros. The bounds stay, nothing stays pending or held,
the phase is FINISHED, and only the encoder changes. -/
def Obligations.EncFinCompletesStream : Prop :=
  ∀ s : State, s.fault = false → s.enc.phase ≠ .finished → s.enc.pending.toNat < 0xFFFFFFFF →
    ∃ t, exec .encFin s = .next t ∧ t.enc.phase = .finished ∧
      t.enc.low = s.enc.low ∧ t.enc.high = s.enc.high ∧ t.enc.pending = 0 ∧ t.enc.bitCnt = 0 ∧
      t = { s with enc := t.enc } ∧
      (let b := decide (quarter ≤ s.enc.low.toNat)
       let bits := sinkBits s.enc ++ b :: List.replicate (s.enc.pending.toNat + 1) (!b)
       t.enc.out.length = (bits.length + 7) / 8 ∧
       ∀ k, streamBit t.enc.out k = bits.getD k false)

/-- R170, R263: the faults of `ENC_FIN` in their order: `ENC_FINISHED` (0x02) in phase FINISHED, then
`PENDING_OVERFLOW` (0x08) with the counter at 2^32 - 1. -/
def Obligations.EncFinFaultsInOrder : Prop :=
  ∀ s : State, s.fault = false →
    if s.enc.phase = .finished then
      exec .encFin s = .next { s with fault := true, faultCode := 0x02 }
    else s.enc.pending.toNat = 0xFFFFFFFF →
      exec .encFin s = .next { s with fault := true, faultCode := 0x08 }

/-! ## Decoder commands -/

/-- R202 to R204, R39, R169: on a legal state, with a session begun and a usable table, `DEC_SYM`
completes on any input: it responds with the one symbol whose entries enclose the value of R203, keeps
the code inside a wide interval, reads at most 32 bits, and changes only the decoder and the
responses. -/
def Obligations.DecSymCompletes : Prop :=
  ∀ (s : State) (m : TableSel), s.Inv → s.fault = false → s.dec.active = true → Usable s m →
    ∃ t, exec (.decSym m) s = .next t ∧ t.fault = false ∧
      t = { s with dec := t.dec, rsp := t.rsp } ∧
      (∃ sym : Byte, t.rsp = s.rsp ++ [sym.setWidth 32] ∧
        let value := ((s.dec.code.toNat - s.dec.low.toNat + 1) * tableTotal (selectedTable s m) - 1)
          / (s.dec.high.toNat - s.dec.low.toNat + 1)
        cumLow (selectedTable s m) sym ≤ value ∧ value < cumNext (selectedTable s m) sym) ∧
      t.dec.low.toNat ≤ t.dec.code.toNat ∧ t.dec.code.toNat ≤ t.dec.high.toNat ∧
      Wide t.dec.low t.dec.high ∧ t.dec.active = true ∧ t.dec.input = s.dec.input ∧
      s.dec.bitPos ≤ t.dec.bitPos ∧ t.dec.bitPos ≤ s.dec.bitPos + 32

/-- R202, R118, R263: the faults of `DEC_SYM` in their order: `DEC_NOT_ACTIVE` (0x03),
`LUT_NOT_VALID` (0x04), `BAD_TOTAL` (0x05). -/
def Obligations.DecSymFaultsInOrder : Prop :=
  ∀ (s : State) (m : TableSel), s.fault = false →
    if s.dec.active = false then
      exec (.decSym m) s = .next { s with fault := true, faultCode := 0x03 }
    else if m = .built ∧ s.lut.valid = false then
      exec (.decSym m) s = .next { s with fault := true, faultCode := 0x04 }
    else (tableTotal (selectedTable s m) = 0 ∨
        s.maxTotal.toNat < tableTotal (selectedTable s m)) →
      exec (.decSym m) s = .next { s with fault := true, faultCode := 0x05 }

/-- R202, R206, R208: from the full interval a uniform symbol is the top byte of `DEC_CODE`; the code
moves up by eight bits and takes in the next eight of the input, and the interval is full again. That
the symbol is the top byte is the spec's own derivation. -/
def Obligations.UniformSymbolReadsItsByte : Prop :=
  ∀ s : State, s.fault = false → s.dec.active = true → 256 ≤ s.maxTotal.toNat →
    s.dec.low = 0 → s.dec.high = 0xFFFFFFFF →
    ∃ t, exec (.decSym .uniform) s = .next t ∧
      t.rsp = s.rsp ++ [(s.dec.code.extractLsb' 24 8).setWidth 32] ∧
      t.dec.low = 0 ∧ t.dec.high = 0xFFFFFFFF ∧ t.dec.bitPos = s.dec.bitPos + 8 ∧
      (∀ k < 24, t.dec.code.getLsbD (k + 8) = s.dec.code.getLsbD k) ∧
      (∀ k < 8, t.dec.code.getLsbD (7 - k) = streamBit s.dec.input (s.dec.bitPos + k)) ∧
      t = { s with dec := t.dec, rsp := t.rsp }

/-! ## Encoder and decoder together -/

/-- R209, R210: one step of the lock-step. If the decoder's bounds equal the encoder's and the decoder
answers the symbol the encoder encodes, under the same table, then the bounds are equal again, and the
decoder has read one bit for each renormalization step of the encoder. The spec marks both rules as its
own derivation. -/
def Obligations.LockStepOfOneSymbol : Prop :=
  ∀ (s t s' t' : State) (m : TableSel) (sym : Byte),
    s.Inv → s.fault = false → exec (.encSym m sym) s = .next t → t.fault = false →
    s'.Inv → s'.fault = false → s'.lut = s.lut → s'.maxTotal = s.maxTotal →
    s'.dec.low = s.enc.low → s'.dec.high = s.enc.high →
    exec (.decSym m) s' = .next t' → t'.rsp = s'.rsp ++ [sym.setWidth 32] →
    t'.dec.low = t.enc.low ∧ t'.dec.high = t.enc.high ∧
      t'.dec.bitPos + shiftCount s.enc = s'.dec.bitPos + shiftCount t.enc

/-- R74, R172, R209, R210: a session round trip. Whatever symbols a session encodes from the Fresh
state, under either table, a decoder session on its finished `OUT`, with the same table selections,
completes without a fault and responds with exactly those symbols. It is the heart of R74 for any
sequence of symbols; the spec marks R172, R209 and R210 as its own derivations. -/
def Obligations.SessionRoundTrip : Prop :=
  ∀ (s t : State) (syms : List (TableSel × Byte)), s.Inv → s.fault = false →
    s.enc.phase = .fresh →
    runCommands (syms.map (fun p => .encSym p.1 p.2) ++ [.encFin]) s = .next t →
    t.fault = false →
    ∃ u, runCommands (.decInit :: syms.map (fun p => .decSym p.1))
        { t with inPort := t.enc.out } = .next u ∧
      u.fault = false ∧ u.rsp = t.rsp ++ syms.map (fun p => p.2.setWidth 32)

/-- R70 to R74: the round trip of the host protocol. For data whose total is at most `MAX_TOTAL`, the
encode protocol completes; the decode protocol on its `OUT`, on any instance, answers the length and
the smoothed frequencies from the header and then exactly the data. No fault is raised. The bound on
the length keeps the pending bits, at most 32 a symbol, below the counter's limit (R167); it is no
restriction on an instance with `MAX_TOTAL` at most 2^27. -/
def Obligations.ProtocolRoundTrip : Prop :=
  ∀ (s d : State) (data : List Byte), s.Inv → s.fault = false → d.Inv → d.fault = false →
    256 + data.length ≤ s.maxTotal.toNat → 256 + data.length ≤ d.maxTotal.toNat →
    data.length < 2 ^ 27 →
    ∃ t, runCommands (encodeCommands data) s = .next t ∧ t.fault = false ∧
    ∃ u header, runCommands (.decInit :: decodeHeaderCommands)
        { d with inPort := t.enc.out } = .next u ∧
      u.fault = false ∧ u.rsp = d.rsp ++ header ∧ header.length = 1028 ∧
      headerValues header = BitVec.ofNat 32 data.length :: smoothedFreqs data ∧
    ∃ v, runCommands (decodeDataCommands (BitVec.ofNat 32 data.length) (smoothedFreqs data)) u
        = .next v ∧
      v.fault = false ∧ v.rsp = u.rsp ++ data.map fun b => b.setWidth 32
end

