-- ==== Sys2Proof/Laws/State.lean ====
section
/-! SUPPORT. The fields of a state after each named update, so that no proof unfolds one; how the
common checks of R262 end; and read after write of the staging array. -/

namespace Sys2Proof.Machine

/-! ### `Except`, the carrier of a command's own rule -/

@[simp] theorem ok_bind {α β : Type} (a : α) (f : α → Except Abort β) : (Except.ok a >>= f) = f a :=
  rfl

@[simp] theorem error_bind {α β : Type} (x : Abort) (f : α → Except Abort β) :
    (Except.error x >>= f) = Except.error x := rfl

/-- A sequence of two parts completes when both do. -/
theorem bind_eq_ok {α β : Type} {x : Except Abort α} {f : α → Except Abort β} {b : β} :
    (x >>= f) = .ok b ↔ ∃ a, x = .ok a ∧ f a = .ok b := by
  cases x <;> simp

@[simp] theorem require_true (c : FaultCode) : require true c = .ok () := rfl

@[simp] theorem require_false (c : FaultCode) : require false c = .error (.raise c) := rfl

/-- A check passes exactly when its condition holds. -/
theorem require_eq_ok {p : Bool} {c : FaultCode} {u : Unit} : require p c = .ok u ↔ p = true := by
  cases p <;> simp

/-! ### Responses, faults and reset -/

@[simp] theorem respond_enc (v : Word) (s : State) : (respond v s).enc = s.enc := rfl
@[simp] theorem respond_dec (v : Word) (s : State) : (respond v s).dec = s.dec := rfl
@[simp] theorem respond_lut (v : Word) (s : State) : (respond v s).lut = s.lut := rfl
@[simp] theorem respond_fault (v : Word) (s : State) : (respond v s).fault = s.fault := rfl
@[simp] theorem respond_faultCode (v : Word) (s : State) :
    (respond v s).faultCode = s.faultCode := rfl
@[simp] theorem respond_rsp (v : Word) (s : State) : (respond v s).rsp = s.rsp ++ [v] := rfl
@[simp] theorem respond_maxTotal (v : Word) (s : State) :
    (respond v s).maxTotal = s.maxTotal := rfl
@[simp] theorem respond_pending (v : Word) (s : State) : (respond v s).pending = s.pending := rfl
@[simp] theorem respond_inPort (v : Word) (s : State) : (respond v s).inPort = s.inPort := rfl

@[simp] theorem takeFault_enc (c : FaultCode) (s : State) : (takeFault c s).enc = s.enc := rfl
@[simp] theorem takeFault_dec (c : FaultCode) (s : State) : (takeFault c s).dec = s.dec := rfl
@[simp] theorem takeFault_lut (c : FaultCode) (s : State) : (takeFault c s).lut = s.lut := rfl
@[simp] theorem takeFault_fault (c : FaultCode) (s : State) : (takeFault c s).fault = true := rfl
@[simp] theorem takeFault_faultCode (c : FaultCode) (s : State) :
    (takeFault c s).faultCode = faultNumber c := rfl
@[simp] theorem takeFault_rsp (c : FaultCode) (s : State) : (takeFault c s).rsp = s.rsp := rfl
@[simp] theorem takeFault_maxTotal (c : FaultCode) (s : State) :
    (takeFault c s).maxTotal = s.maxTotal := rfl
@[simp] theorem takeFault_pending (c : FaultCode) (s : State) :
    (takeFault c s).pending = s.pending := rfl
@[simp] theorem takeFault_inPort (c : FaultCode) (s : State) :
    (takeFault c s).inPort = s.inPort := rfl

@[simp] theorem applyReset_enc (s : State) : (applyReset s).enc = Encoder.reset := rfl
@[simp] theorem applyReset_dec (s : State) : (applyReset s).dec = Decoder.reset := rfl
@[simp] theorem applyReset_lut (s : State) : (applyReset s).lut = Lut.reset := rfl
@[simp] theorem applyReset_fault (s : State) : (applyReset s).fault = false := rfl
@[simp] theorem applyReset_faultCode (s : State) : (applyReset s).faultCode = 0 := rfl
@[simp] theorem applyReset_rsp (s : State) : (applyReset s).rsp = [] := rfl
@[simp] theorem applyReset_maxTotal (s : State) : (applyReset s).maxTotal = s.maxTotal := rfl
@[simp] theorem applyReset_pending (s : State) : (applyReset s).pending = s.pending := rfl
@[simp] theorem applyReset_inPort (s : State) : (applyReset s).inPort = [] := rfl

/-- Every fault code is one of 0x01 to 0x09 (R261). -/
theorem faultNumber_range (c : FaultCode) :
    1 ≤ (faultNumber c).toNat ∧ (faultNumber c).toNat ≤ 9 := by
  cases c <;> decide

/-! ### The common checks (R262) -/

/-- While `FAULT = 1` the word is discarded (R265). -/
theorem command_faulted {s : State} (h : s.fault = true) (body : Except Abort State) :
    command s body = .next s := by
  simp [command, h]

/-- A command that completes gives the state of its own rule. -/
theorem command_ok {s : State} (h : s.fault = false) (t : State) :
    command s (.ok t) = .next t := by
  simp [command, conclude, h]

/-- A command that raises a fault leaves the state as it was, with the fault recorded (R264). -/
theorem command_raise {s : State} (h : s.fault = false) (c : FaultCode) :
    command s (.error (.raise c)) = .next (takeFault c s) := by
  simp [command, conclude, h]

/-- All a command can do when it answers a next state. -/
theorem command_next {s t : State} {body : Except Abort State} (h : command s body = .next t) :
    (s.fault = true ∧ t = s) ∨ (s.fault = false ∧ body = .ok t) ∨
      (s.fault = false ∧ ∃ c, body = .error (.raise c) ∧ t = takeFault c s) := by
  cases hf : s.fault with
  | true => rw [command_faulted hf] at h; injection h with h; exact .inl ⟨rfl, h.symm⟩
  | false =>
    match body with
    | .ok u => rw [command_ok hf] at h; injection h with h; exact .inr (.inl ⟨rfl, by rw [h]⟩)
    | .error (.raise c) =>
      rw [command_raise hf] at h; injection h with h; exact .inr (.inr ⟨rfl, c, rfl, h.symm⟩)
    | .error (.stuck f) => simp [command, conclude, hf] at h

/-- A command stops the machine only where its own rule has no result. -/
theorem command_fault {s : State} {f : Fault} {body : Except Abort State}
    (h : command s body = .fault f) : s.fault = false ∧ body = .error (.stuck f) := by
  cases hf : s.fault with
  | true => rw [command_faulted hf] at h; cases h
  | false =>
    match body with
    | .ok u => rw [command_ok hf] at h; cases h
    | .error (.raise c) => rw [command_raise hf] at h; cases h
    | .error (.stuck g) =>
      simp only [command, conclude, hf] at h
      injection h with h
      exact ⟨rfl, by rw [h]⟩

/-- No command is refused. -/
theorem command_refused {s : State} {r : Refusal} {body : Except Abort State} :
    command s body ≠ .refused r := by
  intro h
  cases hf : s.fault with
  | true => rw [command_faulted hf] at h; cases h
  | false =>
    match body with
    | .ok u => rw [command_ok hf] at h; cases h
    | .error (.raise c) => rw [command_raise hf] at h; cases h
    | .error (.stuck g) => simp [command, conclude, hf] at h

/-! ### The staging array (R28, R51) -/

@[simp] theorem readFreq_writeFreq_same (i : Byte) (v : Word) (l : Lut) :
    readFreq (writeFreq i v l) i = v := by
  simp [readFreq, writeFreq]

theorem readFreq_writeFreq_other {i j : Byte} (h : j ≠ i) (v : Word) (l : Lut) :
    readFreq (writeFreq i v l) j = readFreq l j := by
  have h' : i.toNat ≠ j.toNat := fun e => h (BitVec.eq_of_toNat_eq e.symm)
  simp only [readFreq, writeFreq]
  rw [Vector.getElem_set_ne i.isLt j.isLt h']

@[simp] theorem writeFreq_cum (i : Byte) (v : Word) (l : Lut) : (writeFreq i v l).cum = l.cum := rfl

@[simp] theorem writeFreq_valid (i : Byte) (v : Word) (l : Lut) :
    (writeFreq i v l).valid = l.valid := rfl

end Sys2Proof.Machine
end

