-- ==== Sys2Proof/Laws/Bits.lean ====
section
/-! SUPPORT. What the bit sink and the bit source do, in terms of the bits of the stream (R54, R142),
and the fields they leave alone. -/

namespace Sys2Proof.Machine

/-! ### Fields the sink leaves alone -/

@[simp] theorem sinkPut_low (b : Bool) (e : Encoder) : (sinkPut b e).low = e.low := by
  unfold sinkPut; split <;> rfl
@[simp] theorem sinkPut_high (b : Bool) (e : Encoder) : (sinkPut b e).high = e.high := by
  unfold sinkPut; split <;> rfl
@[simp] theorem sinkPut_pending (b : Bool) (e : Encoder) : (sinkPut b e).pending = e.pending := by
  unfold sinkPut; split <;> rfl
@[simp] theorem sinkPut_phase (b : Bool) (e : Encoder) : (sinkPut b e).phase = e.phase := by
  unfold sinkPut; split <;> rfl

@[simp] theorem sinkPutMany_low (b : Bool) (n : Nat) (e : Encoder) :
    (sinkPutMany b n e).low = e.low := by
  induction n generalizing e with
  | zero => rfl
  | succ n ih => simp [sinkPutMany, ih]
@[simp] theorem sinkPutMany_high (b : Bool) (n : Nat) (e : Encoder) :
    (sinkPutMany b n e).high = e.high := by
  induction n generalizing e with
  | zero => rfl
  | succ n ih => simp [sinkPutMany, ih]
@[simp] theorem sinkPutMany_phase (b : Bool) (n : Nat) (e : Encoder) :
    (sinkPutMany b n e).phase = e.phase := by
  induction n generalizing e with
  | zero => rfl
  | succ n ih => simp [sinkPutMany, ih]

@[simp] theorem emit_low (b : Bool) (e : Encoder) : (emit b e).low = e.low := by simp [emit]
@[simp] theorem emit_high (b : Bool) (e : Encoder) : (emit b e).high = e.high := by simp [emit]
@[simp] theorem emit_phase (b : Bool) (e : Encoder) : (emit b e).phase = e.phase := by simp [emit]
@[simp] theorem emit_pending (b : Bool) (e : Encoder) : (emit b e).pending = 0 := rfl

@[simp] theorem sinkFlush_low (e : Encoder) : (sinkFlush e).low = e.low := by
  unfold sinkFlush; split <;> rfl
@[simp] theorem sinkFlush_high (e : Encoder) : (sinkFlush e).high = e.high := by
  unfold sinkFlush; split <;> rfl
@[simp] theorem sinkFlush_pending (e : Encoder) : (sinkFlush e).pending = e.pending := by
  unfold sinkFlush; split <;> rfl
@[simp] theorem sinkFlush_phase (e : Encoder) : (sinkFlush e).phase = e.phase := by
  unfold sinkFlush; split <;> rfl
@[simp] theorem sinkFlush_bitCnt (e : Encoder) : (sinkFlush e).bitCnt = 0 := by
  unfold sinkFlush
  split
  · rfl
  · rename_i h
    exact BitVec.eq_of_toNat_eq (by simpa using h)

/-! ### The bits of the stream -/

@[simp] theorem byteBits_length (b : Byte) : (byteBits b).length = 8 := by simp [byteBits]

@[simp] theorem heldBits_length (e : Encoder) : (heldBits e).length = e.bitCnt.toNat := by
  simp [heldBits]

/-- Shifting a bit into a byte moves every bit up and puts the new one below (R140). -/
theorem getLsbD_shiftIn (x : Byte) (b : Bool) (k : Nat) (h : k < 8) :
    ((x <<< 1) ||| (BitVec.ofBool b).setWidth 8).getLsbD k =
      if k = 0 then b else x.getLsbD (k - 1) := by
  rcases k with _ | k
  · cases b <;> simp
  · cases b <;> simp [h, BitVec.getLsbD_eq_getElem (show k < 8 by omega)]

/-- `SinkPut` appends one bit to the bits of the session (R140, R54). -/
theorem sinkBits_sinkPut (b : Bool) (e : Encoder) :
    sinkBits (sinkPut b e) = sinkBits e ++ [b] := by
  have hc : e.bitCnt.toNat < 8 := e.bitCnt.isLt
  unfold sinkPut
  simp only
  split
  · rename_i h
    have h7 : e.bitCnt.toNat = 7 := by omega
    simp only [sinkBits, List.flatMap_append, List.append_assoc, heldBits, h7]
    congr 1
    simp [byteBits, List.range_succ]
  · rename_i h
    have hn : (e.bitCnt + 1).toNat = e.bitCnt.toNat + 1 := by
      simp [BitVec.toNat_add]; omega
    simp only [sinkBits, heldBits, hn, List.append_assoc]
    congr 1
    apply List.ext_getElem
    · simp
    · intro i h1 h2
      simp only [List.length_map, List.length_range] at h1
      rw [List.getElem_append]
      simp only [List.getElem_map, List.getElem_range, List.length_map, List.length_range]
      split
      · rename_i hi
        rw [getLsbD_shiftIn _ _ _ (by omega)]
        rw [if_neg (by omega)]
        congr 1
        omega
      · have : i = e.bitCnt.toNat := by omega
        subst this
        rw [getLsbD_shiftIn _ _ _ (by omega)]
        simp

theorem sinkBits_sinkPutMany (b : Bool) (n : Nat) (e : Encoder) :
    sinkBits (sinkPutMany b n e) = sinkBits e ++ List.replicate n b := by
  induction n generalizing e with
  | zero => simp [sinkPutMany]
  | succ n ih => simp [sinkPutMany, ih, sinkBits_sinkPut, List.replicate_succ]

/-- `Emit(b)` appends the definite bit and then its complement once per pending bit (R143). -/
theorem sinkBits_emit (b : Bool) (e : Encoder) :
    sinkBits (emit b e) = sinkBits e ++ b :: List.replicate e.pending.toNat (!b) := by
  have h : sinkBits (emit b e) = sinkBits (sinkPutMany (!b) e.pending.toNat (sinkPut b e)) := rfl
  rw [h, sinkBits_sinkPutMany, sinkBits_sinkPut]
  simp

/-- The held bits stand below the position of the count (R25), and `SinkPut` keeps that. -/
theorem sinkPut_held {b : Bool} {e : Encoder} (h : e.bitBuf.toNat < 2 ^ e.bitCnt.toNat) :
    (sinkPut b e).bitBuf.toNat < 2 ^ (sinkPut b e).bitCnt.toNat := by
  have hc : e.bitCnt.toNat < 8 := e.bitCnt.isLt
  unfold sinkPut
  simp only
  split
  · simp
  · rename_i hne
    have hn : (e.bitCnt + 1).toNat = e.bitCnt.toNat + 1 := by
      simp [BitVec.toNat_add]; omega
    rw [hn]
    apply Nat.lt_pow_two_of_testBit
    intro i hi
    rcases Nat.lt_or_ge i 8 with h8 | h8
    · have := getLsbD_shiftIn e.bitBuf b i h8
      rw [BitVec.getLsbD, if_neg (by omega)] at this
      rw [this, BitVec.getLsbD]
      exact Nat.testBit_lt_two_pow (Nat.lt_of_lt_of_le h (Nat.pow_le_pow_right (by decide) (by omega)))
    · exact Nat.testBit_lt_two_pow
        (Nat.lt_of_lt_of_le (BitVec.isLt _) (Nat.pow_le_pow_right (by decide) h8))

theorem sinkPutMany_held {b : Bool} (n : Nat) {e : Encoder}
    (h : e.bitBuf.toNat < 2 ^ e.bitCnt.toNat) :
    (sinkPutMany b n e).bitBuf.toNat < 2 ^ (sinkPutMany b n e).bitCnt.toNat := by
  induction n generalizing e with
  | zero => exact h
  | succ n ih => exact ih (sinkPut_held h)

theorem emit_held {b : Bool} {e : Encoder} (h : e.bitBuf.toNat < 2 ^ e.bitCnt.toNat) :
    (emit b e).bitBuf.toNat < 2 ^ (emit b e).bitCnt.toNat :=
  sinkPutMany_held _ (sinkPut_held h)

/-- `SinkFlush` leaves the buffer empty (R141). -/
theorem sinkFlush_held {e : Encoder} (h : e.bitBuf.toNat < 2 ^ e.bitCnt.toNat) :
    (sinkFlush e).bitBuf = 0 := by
  unfold sinkFlush
  split
  · rfl
  · rename_i hn
    have h0 : e.bitCnt.toNat = 0 := by omega
    rw [h0] at h
    exact BitVec.eq_of_toNat_eq (by simpa using h)

/-- `OUT` only grows (R55): `SinkPut`. -/
theorem sinkPut_out (b : Bool) (e : Encoder) : e.out <+: (sinkPut b e).out := by
  unfold sinkPut
  simp only
  split
  · exact List.prefix_append _ _
  · exact List.prefix_rfl

theorem sinkPutMany_out (b : Bool) (n : Nat) (e : Encoder) : e.out <+: (sinkPutMany b n e).out := by
  induction n generalizing e with
  | zero => exact List.prefix_rfl
  | succ n ih => exact (sinkPut_out b e).trans (ih _)

/-- `OUT` only grows (R55): `Emit`. -/
theorem emit_out (b : Bool) (e : Encoder) : e.out <+: (emit b e).out :=
  (sinkPut_out b e).trans (sinkPutMany_out _ _ _)

/-- `OUT` only grows (R55): `SinkFlush`. -/
theorem sinkFlush_out (e : Encoder) : e.out <+: (sinkFlush e).out := by
  unfold sinkFlush
  split
  · exact List.prefix_append _ _
  · exact List.prefix_rfl

theorem sinkBits_length (e : Encoder) :
    (sinkBits e).length = e.out.length * 8 + e.bitCnt.toNat := by
  simp [sinkBits, List.length_flatMap]

theorem byteBits_getElem? (b : Byte) (k : Nat) (h : k < 8) :
    (byteBits b)[k]? = some (b.getLsbD (7 - k)) := by
  simp [byteBits, h]

/-- A bit of a byte sequence is that bit of the list of all its bits, 0 past the end (R54). -/
theorem streamBit_eq (bytes : List Byte) (k : Nat) :
    streamBit bytes k = (bytes.flatMap byteBits).getD k false := by
  induction bytes generalizing k with
  | nil => simp [streamBit]
  | cons b bytes ih =>
    simp only [List.flatMap_cons]
    rcases Nat.lt_or_ge k 8 with h | h
    · rw [List.getD_eq_getElem?_getD, List.getElem?_append_left (by simpa), byteBits_getElem? b k h]
      simp [streamBit, Nat.div_eq_of_lt h, Nat.mod_eq_of_lt h]
    · rw [List.getD_eq_getElem?_getD, List.getElem?_append_right (by simpa),
        ← List.getD_eq_getElem?_getD]
      simp only [byteBits_length]
      rw [← ih (k - 8)]
      unfold streamBit
      rw [show k / 8 = (k - 8) / 8 + 1 by omega, show k % 8 = (k - 8) % 8 by omega]
      simp

/-- `SinkFlush` pads the bits put with zeros to a whole number of bytes (R141). -/
theorem sinkFlush_bits (e : Encoder) :
    (sinkFlush e).out.flatMap byteBits
      = sinkBits e ++ List.replicate ((8 - e.bitCnt.toNat) % 8) false := by
  have hc : e.bitCnt.toNat < 8 := e.bitCnt.isLt
  unfold sinkFlush
  split
  · rename_i h
    simp only [List.flatMap_append, sinkBits, List.append_assoc]
    congr 1
    apply List.ext_getElem
    · simp; omega
    · intro i h1 h2
      have h8 : i < 8 := by simpa using h1
      have hbit : (List.flatMap byteBits [e.bitBuf <<< (8 - e.bitCnt.toNat)])[i]
          = (e.bitBuf <<< (8 - e.bitCnt.toNat)).getLsbD (7 - i) := by
        simp [byteBits]
      refine hbit.trans ?_
      rw [List.getElem_append, BitVec.getLsbD_shiftLeft]
      split
      · rename_i hi
        simp only [heldBits_length] at hi
        simp only [heldBits, List.getElem_map, List.getElem_range]
        rw [decide_eq_true (by omega), decide_eq_false (by omega)]
        simp only [Bool.not_false, Bool.true_and]
        congr 1
        omega
      · rename_i hi
        simp only [heldBits_length] at hi
        rw [List.getElem_replicate, decide_eq_true (by omega : 7 - i < 8 - e.bitCnt.toNat)]
        simp
  · have h0 : e.bitCnt.toNat = 0 := by omega
    simp [sinkBits, heldBits, h0]

/-- How many bytes `SinkFlush` leaves (R141). -/
theorem sinkFlush_length (e : Encoder) :
    (sinkFlush e).out.length = ((sinkBits e).length + 7) / 8 := by
  have hc : e.bitCnt.toNat < 8 := e.bitCnt.isLt
  rw [sinkBits_length]
  unfold sinkFlush
  split
  · simp; omega
  · omega

/-! ### The bit source -/

/-- A bit of the code after taking in the next bit of the stream (R200, R208). -/
theorem shiftCodeIn_getLsbD (d : Decoder) (i : Nat) (h : i < 32) :
    (shiftCodeIn d).code.getLsbD i =
      if i = 0 then streamBit d.input d.bitPos else d.code.getLsbD (i - 1) := by
  have hc : (shiftCodeIn d).code =
      (d.code <<< 1) ||| (BitVec.ofBool (streamBit d.input d.bitPos)).setWidth 32 := rfl
  rw [hc]
  rcases i with _ | k
  · cases streamBit d.input d.bitPos <;> simp
  · cases streamBit d.input d.bitPos <;>
      simp [h, BitVec.getLsbD_eq_getElem (show k < 32 by omega)]

@[simp] theorem shiftCodeIn_low (d : Decoder) : (shiftCodeIn d).low = d.low := rfl
@[simp] theorem shiftCodeIn_high (d : Decoder) : (shiftCodeIn d).high = d.high := rfl
@[simp] theorem shiftCodeIn_bitPos (d : Decoder) : (shiftCodeIn d).bitPos = d.bitPos + 1 := rfl
@[simp] theorem shiftCodeIn_input (d : Decoder) : (shiftCodeIn d).input = d.input := rfl
@[simp] theorem shiftCodeIn_active (d : Decoder) : (shiftCodeIn d).active = d.active := rfl

/-- A code below 2^31 takes in the next bit of the stream exactly (R208). -/
theorem shiftCodeIn_code {d : Decoder} (h : d.code.toNat < half) :
    (shiftCodeIn d).code.toNat = 2 * d.code.toNat + (streamBit d.input d.bitPos).toNat := by
  unfold half at h
  have hc : (shiftCodeIn d).code =
      (d.code <<< 1) ||| (BitVec.ofBool (streamBit d.input d.bitPos)).setWidth 32 := rfl
  rw [hc]
  cases streamBit d.input d.bitPos
  · simp [BitVec.toNat_shiftLeft, Nat.shiftLeft_eq]; omega
  · simp only [BitVec.toNat_or, BitVec.toNat_shiftLeft, Nat.shiftLeft_eq]
    have h1 : d.code.toNat * 2 ^ 1 % 2 ^ 32 = 2 * d.code.toNat := by omega
    rw [h1]
    have h2 : ((BitVec.ofBool true).setWidth 32).toNat = 1 := by decide
    rw [h2, Bool.toNat_true, Nat.mul_comm, ← Nat.shiftLeft_eq _ 1,
      Nat.shiftLeft_add_eq_or_of_lt (by decide : 1 < 2 ^ 1)]

end Sys2Proof.Machine
end

