-- ==== Sys2Proof/Laws/Interval.lean ====
section
/-! SUPPORT. The interval arithmetic under its preconditions: `Narrow` stays inside the interval (R163),
one renormalization step doubles it exactly (R165 to R168), and a stopped loop leaves it wide (R37). -/

namespace Sys2Proof.Machine

/-- `Narrow` has no result but the exact one (R163). -/
theorem narrow_eq_ok {low high : Word} {cl f total : Nat} {b : Word × Word}
    (h : narrow low high cl f total = .ok b) :
    low.toNat ≤ high.toNat ∧
    b.1.toNat = low.toNat + (high.toNat - low.toNat + 1) * cl / total ∧
    b.2.toNat + 1 = low.toNat + (high.toNat - low.toNat + 1) * (cl + f) / total := by
  unfold narrow at h
  simp only at h
  generalize (high.toNat - low.toNat + 1) * cl / total = q1 at *
  generalize (high.toNat - low.toNat + 1) * (cl + f) / total = q2 at *
  split at h
  · rename_i hc
    obtain ⟨h1, h2, h3, h4⟩ := hc
    injection h with h
    subst h
    unfold top at h2 h4
    refine ⟨h1, ?_, ?_⟩
    · simp only [BitVec.toNat_ofNat]; omega
    · simp only [BitVec.toNat_ofNat]; omega
  · cases h

/-- Under the preconditions of R163 `Narrow` has a result, and it lies inside the old interval and is
not empty. -/
theorem narrow_ok {low high : Word} {cl f total : Nat} (hlh : low.toNat ≤ high.toNat)
    (hr : total ≤ high.toNat - low.toNat + 1) (hf : 1 ≤ f) (ht : cl + f ≤ total) :
    ∃ b, narrow low high cl f total = .ok b ∧ low.toNat ≤ b.1.toNat ∧
      b.1.toNat ≤ b.2.toNat ∧ b.2.toNat ≤ high.toNat := by
  have hH := high.isLt
  have h1 : (high.toNat - low.toNat + 1) * (cl + f) / total ≤ high.toNat - low.toNat + 1 := by
    apply Nat.div_le_of_le_mul
    rw [Nat.mul_comm total]
    exact Nat.mul_le_mul_left _ ht
  have h2 : (high.toNat - low.toNat + 1) * cl / total + 1
      ≤ (high.toNat - low.toNat + 1) * (cl + f) / total := by
    rw [← Nat.add_div_right _ (by omega)]
    apply Nat.div_le_div_right
    rw [Nat.mul_add]
    have : high.toNat - low.toNat + 1 ≤ (high.toNat - low.toNat + 1) * f :=
      Nat.le_mul_of_pos_right _ (by omega)
    omega
  generalize hq1 : (high.toNat - low.toNat + 1) * cl / total = q1 at *
  generalize hq2 : (high.toNat - low.toNat + 1) * (cl + f) / total = q2 at *
  refine ⟨(BitVec.ofNat 32 (low.toNat + q1), BitVec.ofNat 32 (low.toNat + q2 - 1)), ?_, ?_⟩
  · unfold narrow
    simp only [hq1, hq2]
    rw [if_pos]
    unfold top
    omega
  · simp only [BitVec.toNat_ofNat]
    omega

/-! ### The four cases -/

/-- When the loop stops (R168). -/
theorem renormCase_stop {low high : Word} (h : renormCase low high = .stop) :
    low.toNat < half ∧ half ≤ high.toNat ∧ (low.toNat < quarter ∨ threeQuarter ≤ high.toNat) := by
  unfold renormCase at h
  split at h
  · cases h
  · split at h
    · cases h
    · split at h
      · cases h
      · omega

/-- When case 3 applies (R167): the test needs no look at the bounds the first two cases leave. -/
theorem renormCase_middle {low high : Word} :
    renormCase low high = .middle ↔ InMiddle (low.toNat, high.toNat) := by
  unfold renormCase InMiddle
  have h := low.isLt
  unfold half quarter threeQuarter
  split
  · simp; omega
  · split
    · simp; omega
    · split
      · simp; omega
      · simp; omega

/-- A stopped interval is wide (R37). -/
theorem wide_of_stop {low high : Word} (h : renormCase low high = .stop) : Wide low high := by
  have := renormCase_stop h
  unfold Wide half quarter threeQuarter at *
  omega

/-- One renormalization step of an ordered interval: what it subtracts is below every point of the
interval, and the shift of each point is exact (R165 to R168, R206, R208). -/
theorem renorm_point {low high x : Word} (h : renormCase low high ≠ .stop)
    (hl : low.toNat ≤ x.toNat) (hh : x.toNat ≤ high.toNat) :
    (renormCase low high).offset.toNat ≤ x.toNat ∧
    (x - (renormCase low high).offset).toNat = x.toNat - (renormCase low high).offset.toNat ∧
    x.toNat - (renormCase low high).offset.toNat < half := by
  have h1 := low.isLt
  have h2 := high.isLt
  have h3 := x.isLt
  have key : (renormCase low high).offset.toNat ≤ x.toNat ∧
      x.toNat - (renormCase low high).offset.toNat < half := by
    unfold renormCase at *
    split
    · rename_i hc
      simp only [RenormCase.offset]
      unfold half at *
      simp; omega
    · rename_i hc
      split
      · simp only [RenormCase.offset]
        unfold half at *
        simp; omega
      · rename_i hc2
        split
        · simp only [RenormCase.offset]
          unfold half quarter threeQuarter at *
          simp; omega
        · rename_i hc3
          simp [hc, hc2, hc3] at h
  refine ⟨key.1, ?_, key.2⟩
  rw [BitVec.toNat_sub_of_le (by rw [BitVec.le_def]; exact key.1)]

theorem shiftLow_toNat {x : Word} (h : x.toNat < half) : (shiftLow x).toNat = 2 * x.toNat := by
  unfold half at h
  simp [shiftLow, BitVec.toNat_shiftLeft, Nat.shiftLeft_eq]; omega

theorem shiftHigh_toNat {x : Word} (h : x.toNat < half) :
    (shiftHigh x).toNat = 2 * x.toNat + 1 := by
  unfold half at h
  simp only [shiftHigh, BitVec.toNat_or, BitVec.toNat_shiftLeft, Nat.shiftLeft_eq]
  have h1 : x.toNat * 2 ^ 1 % 2 ^ 32 = 2 * x.toNat := by omega
  have h2 : (1 : Word).toNat = 1 := by decide
  rw [h1, h2, Nat.mul_comm, ← Nat.shiftLeft_eq _ 1,
    Nat.shiftLeft_add_eq_or_of_lt (by decide : 1 < 2 ^ 1)]

/-- The bounds after one step: the interval doubles (R168). -/
theorem renorm_bounds {low high : Word} (h : renormCase low high ≠ .stop)
    (hlh : low.toNat ≤ high.toNat) :
    (shiftLow (low - (renormCase low high).offset)).toNat
      = 2 * (low.toNat - (renormCase low high).offset.toNat) ∧
    (shiftHigh (high - (renormCase low high).offset)).toNat
      = 2 * (high.toNat - (renormCase low high).offset.toNat) + 1 ∧
    (renormCase low high).offset.toNat ≤ low.toNat := by
  obtain ⟨a1, a2, a3⟩ := renorm_point h (le_refl _) hlh
  obtain ⟨b1, b2, b3⟩ := renorm_point h hlh (le_refl _)
  refine ⟨?_, ?_, a1⟩
  · rw [shiftLow_toNat (by rw [a2]; exact a3), a2]
  · rw [shiftHigh_toNat (by rw [b2]; exact b3), b2]

/-- An interval that fills the 32-bit space is stopped (R169). -/
theorem stop_of_full {low high : Word} (h : 2 ^ 32 ≤ high.toNat - low.toNat + 1) :
    renormCase low high = .stop := by
  have h1 := low.isLt
  have h2 := high.isLt
  unfold renormCase half quarter threeQuarter
  rw [if_neg (by omega), if_neg (by omega), if_neg (by omega)]

end Sys2Proof.Machine
end

