-- ==== Sys2Proof/Laws/Encoder.lean ====
section
/-! SUPPORT. What the encoder's shared operations can do: one renormalization step, the whole loop
(packaged as one induction), and the two halves of `ENC_SYM` and `ENC_FIN` that touch the encoder. -/

namespace Sys2Proof.Machine

/-! ### The pending counter -/

/-- `ENC_PENDING + 1`, or the overflow fault (R167). -/
theorem addPending_ok {e e' : Encoder} (h : addPending e = .ok e') :
    e' = { e with pending := e.pending + 1 } ∧ e'.pending.toNat = e.pending.toNat + 1 := by
  unfold addPending at h
  obtain ⟨_, h1, h2⟩ := bind_eq_ok.mp h
  have hp := require_eq_ok.mp h1
  injection h2 with h2
  subst h2
  refine ⟨rfl, ?_⟩
  have hlt := e.pending.isLt
  have hne : e.pending.toNat ≠ 0xFFFFFFFF := of_decide_eq_true hp
  rw [BitVec.toNat_add, show (1 : Word).toNat = 1 by decide]
  omega

theorem addPending_of_lt {e : Encoder} (h : e.pending.toNat < Config.pendingLimit) :
    addPending e = .ok { e with pending := e.pending + 1 } := by
  unfold addPending
  rw [show (decide (e.pending.toNat ≠ Config.pendingLimit)) = true by simp; omega]
  rfl

theorem addPending_full {e : Encoder} (h : e.pending.toNat = Config.pendingLimit) :
    addPending e = .error (.raise .pendingOverflow) := by
  unfold addPending
  rw [show (decide (e.pending.toNat ≠ Config.pendingLimit)) = false by simp [h]]
  rfl

/-! ### One step -/

/-- What a case puts or counts leaves the bounds and the phase alone. -/
theorem encCaseBits_ok {c : RenormCase} {e e' : Encoder} (h : encCaseBits c e = .ok e') :
    e'.low = e.low ∧ e'.high = e.high ∧ e'.phase = e.phase := by
  cases c with
  | lower => injection h with h; subst h; simp
  | upper => injection h with h; subst h; simp
  | middle => rw [(addPending_ok h).1]; exact ⟨rfl, rfl, rfl⟩
  | stop => injection h with h; subst h; exact ⟨rfl, rfl, rfl⟩

/-- A case stops the loop only by the overflow of the pending counter, in case 3 (R167). -/
theorem encCaseBits_error {c : RenormCase} {e : Encoder} {a : Abort}
    (h : encCaseBits c e = .error a) :
    a = .raise .pendingOverflow ∧ c = .middle ∧ e.pending.toNat = Config.pendingLimit := by
  cases c with
  | lower => cases h
  | upper => cases h
  | stop => cases h
  | middle =>
    have hp := e.pending.isLt
    have hm : encCaseBits .middle e = addPending e := rfl
    rcases Nat.lt_or_ge e.pending.toNat Config.pendingLimit with hl | hl
    · rw [hm, addPending_of_lt hl] at h; cases h
    · have : e.pending.toNat = Config.pendingLimit := by
        unfold Config.pendingLimit at *; omega
      rw [hm, addPending_full this] at h
      injection h with h
      exact ⟨h.symm, rfl, this⟩

@[simp] theorem encMove_phase (c : RenormCase) (e : Encoder) : (encMove c e).phase = e.phase := rfl
@[simp] theorem encMove_pending (c : RenormCase) (e : Encoder) :
    (encMove c e).pending = e.pending := rfl
@[simp] theorem encMove_out (c : RenormCase) (e : Encoder) : (encMove c e).out = e.out := rfl
@[simp] theorem encMove_bitBuf (c : RenormCase) (e : Encoder) :
    (encMove c e).bitBuf = e.bitBuf := rfl
@[simp] theorem encMove_bitCnt (c : RenormCase) (e : Encoder) :
    (encMove c e).bitCnt = e.bitCnt := rfl
@[simp] theorem sinkBits_encMove (c : RenormCase) (e : Encoder) :
    sinkBits (encMove c e) = sinkBits e := rfl

/-! ### The loop -/

theorem encRenorm_stop {n : Nat} {e : Encoder} (h : renormCase e.low e.high = .stop) :
    encRenorm n e = .ok e := by
  cases n <;> simp [encRenorm, h]

theorem encRenorm_step {n : Nat} {e : Encoder} (h : renormCase e.low e.high ≠ .stop) :
    encRenorm (n + 1) e = encCaseBits (renormCase e.low e.high) e >>= fun e' =>
      encRenorm n (encMove (renormCase e.low e.high) e') := by
  simp [encRenorm, h]

/-- The induction over the loop, once: what every iteration keeps holds of the result, and the result
is stopped (R164). -/
theorem encRenorm_keeps {P : Encoder → Prop}
    (keeps : ∀ e e', renormCase e.low e.high ≠ .stop → P e →
      encCaseBits (renormCase e.low e.high) e = .ok e' → P (encMove (renormCase e.low e.high) e'))
    (n : Nat) {e t : Encoder} (hP : P e) (h : encRenorm n e = .ok t) :
    P t ∧ renormCase t.low t.high = .stop := by
  induction n generalizing e with
  | zero =>
    unfold encRenorm at h
    split at h
    · injection h with h; subst h; exact ⟨hP, by assumption⟩
    · cases h
  | succ n ih =>
    by_cases hs : renormCase e.low e.high = .stop
    · rw [encRenorm_stop hs] at h
      injection h with h; subst h; exact ⟨hP, hs⟩
    · rw [encRenorm_step hs] at h
      obtain ⟨e', h1, h2⟩ := bind_eq_ok.mp h
      exact ih (keeps e e' hs hP h1) h2

/-- One iteration keeps the bounds in order. -/
theorem encStep_ordered {e e' : Encoder} (hs : renormCase e.low e.high ≠ .stop)
    (ho : e.low.toNat ≤ e.high.toNat) (h : encCaseBits (renormCase e.low e.high) e = .ok e') :
    (encMove (renormCase e.low e.high) e').low.toNat
      ≤ (encMove (renormCase e.low e.high) e').high.toNat := by
  obtain ⟨h1, h2, _⟩ := encCaseBits_ok h
  obtain ⟨b1, b2, b3⟩ := renorm_bounds hs ho
  simp only [encMove, h1, h2]
  rw [b1, b2]
  omega

/-- One iteration doubles the interval, so that the iterations left still reach the whole 32-bit space
(R168, R169). -/
theorem encStep_room {n : Nat} {e e' : Encoder} (hs : renormCase e.low e.high ≠ .stop)
    (ho : e.low.toNat ≤ e.high.toNat) (h : encCaseBits (renormCase e.low e.high) e = .ok e')
    (hn : 2 ^ 32 ≤ (e.high.toNat - e.low.toNat + 1) * 2 ^ (n + 1)) :
    2 ^ 32 ≤ ((encMove (renormCase e.low e.high) e').high.toNat
      - (encMove (renormCase e.low e.high) e').low.toNat + 1) * 2 ^ n := by
  obtain ⟨h1, h2, _⟩ := encCaseBits_ok h
  obtain ⟨b1, b2, b3⟩ := renorm_bounds hs ho
  simp only [encMove, h1, h2]
  rw [b1, b2]
  have : 2 * (e.high.toNat - (renormCase e.low e.high).offset.toNat) + 1 -
      2 * (e.low.toNat - (renormCase e.low e.high).offset.toNat) + 1
      = 2 * (e.high.toNat - e.low.toNat + 1) := by omega
  rw [this]
  calc 2 ^ 32 ≤ (e.high.toNat - e.low.toNat + 1) * 2 ^ (n + 1) := hn
    _ = 2 * (e.high.toNat - e.low.toNat + 1) * 2 ^ n := by ring

/-- Far enough from its limit the pending counter does not overflow, so the loop completes. -/
theorem encRenorm_completes (n : Nat) {e : Encoder} (ho : e.low.toNat ≤ e.high.toNat)
    (hn : 2 ^ 32 ≤ (e.high.toNat - e.low.toNat + 1) * 2 ^ n)
    (hp : e.pending.toNat + n ≤ Config.pendingLimit) :
    ∃ t, encRenorm n e = .ok t := by
  induction n generalizing e with
  | zero => exact ⟨e, encRenorm_stop (stop_of_full (by simpa using hn))⟩
  | succ n ih =>
    by_cases hs : renormCase e.low e.high = .stop
    · exact ⟨e, encRenorm_stop hs⟩
    · rw [encRenorm_step hs]
      cases hb : encCaseBits (renormCase e.low e.high) e with
      | error a => have := (encCaseBits_error hb).2.2; omega
      | ok e' =>
        rw [ok_bind]
        have hpe : e'.pending.toNat ≤ e.pending.toNat + 1 := by
          revert hb
          generalize renormCase e.low e.high = c
          intro hb
          cases c with
          | lower => injection hb with hb; subst hb; simp
          | upper => injection hb with hb; subst hb; simp
          | middle => rw [(addPending_ok hb).2]
          | stop => injection hb with hb; subst hb; omega
        exact ih (encStep_ordered hs ho hb) (encStep_room hs ho hb hn)
          (by simp only [encMove_pending]; omega)

/-- The first iteration may be split off from the front. -/
theorem middleSteps_succ (low high j : Nat) :
    middleSteps low high (j + 1) =
      middleSteps (2 * (low - quarter)) (2 * (high - quarter) + 1) j := by
  induction j with
  | zero => simp [middleSteps]
  | succ j ih => rw [middleSteps, ih, middleSteps]

/-- A case 3 iteration keeps whether the counter fills. -/
theorem fills_step {e e' : Encoder} (hm : renormCase e.low e.high = .middle)
    (ho : e.low.toNat ≤ e.high.toNat) (ha : addPending e = .ok e') :
    e.Fills ↔ (encMove .middle e').Fills := by
  obtain ⟨h1, h2⟩ := addPending_ok ha
  obtain ⟨b1, b2, -⟩ := renorm_bounds (by rw [hm]; decide) ho
  rw [hm, show (RenormCase.middle).offset.toNat = quarter from rfl] at b1 b2
  have hl : (encMove .middle e').low.toNat = 2 * (e.low.toNat - quarter) := by
    rw [← b1, h1]; rfl
  have hh : (encMove .middle e').high.toNat = 2 * (e.high.toNat - quarter) + 1 := by
    rw [← b2, h1]; rfl
  have hlt : e.pending.toNat < Config.pendingLimit := by
    have := e'.pending.isLt
    unfold Config.pendingLimit; omega
  unfold Encoder.Fills
  rw [hl, hh, encMove_pending, h2]
  constructor
  · rintro ⟨j, hj, hi⟩
    obtain ⟨k, rfl⟩ : ∃ k, j = k + 1 := ⟨j - 1, by omega⟩
    exact ⟨k, by omega, fun i h => by rw [← middleSteps_succ]; exact hi (i + 1) (by omega)⟩
  · rintro ⟨j, hj, hi⟩
    refine ⟨j + 1, by omega, fun i h => ?_⟩
    cases i with
    | zero => exact renormCase_middle.mp hm
    | succ i => rw [middleSteps_succ]; exact hi i (by omega)

/-- How the loop ends (R164, R167, R169): it overflows the pending counter exactly when the counter
fills, else it completes within its iterations. After a bit is put the counter starts at 0 again, too far
from its limit for the iterations left. -/
theorem encRenorm_fills (n : Nat) {e : Encoder} (ho : e.low.toNat ≤ e.high.toNat)
    (hn : 2 ^ 32 ≤ (e.high.toNat - e.low.toNat + 1) * 2 ^ n) (hn' : n ≤ Config.renormFuel) :
    (e.Fills → encRenorm n e = .error (.raise .pendingOverflow)) ∧
    (¬ e.Fills → ∃ t, encRenorm n e = .ok t) := by
  have hmid : e.Fills → renormCase e.low e.high = .middle := fun ⟨_, _, h⟩ =>
    renormCase_middle.mpr (h 0 (Nat.zero_le _))
  induction n generalizing e with
  | zero =>
    have hs := stop_of_full (by simpa using hn)
    exact ⟨fun h => absurd (hmid h) (by rw [hs]; decide), fun _ => ⟨e, encRenorm_stop hs⟩⟩
  | succ n ih =>
    by_cases hs : renormCase e.low e.high = .stop
    · exact ⟨fun h => absurd (hmid h) (by rw [hs]; decide), fun _ => ⟨e, encRenorm_stop hs⟩⟩
    rw [encRenorm_step hs]
    cases hb : encCaseBits (renormCase e.low e.high) e with
    | error a =>
      obtain ⟨rfl, hm, hp⟩ := encCaseBits_error hb
      refine ⟨fun _ => rfl, fun h => absurd ?_ h⟩
      exact ⟨0, hp, fun i h => by
        obtain rfl := Nat.le_zero.mp h; exact renormCase_middle.mp hm⟩
    | ok e' =>
      rw [ok_bind]
      have hw := encStep_room hs ho hb hn
      have ho' := encStep_ordered hs ho hb
      by_cases hm : renormCase e.low e.high = .middle
      · rw [hm] at hb hw ho' ⊢
        rw [fills_step hm ho hb]
        exact ih ho' hw (by omega) fun ⟨_, _, h⟩ =>
          renormCase_middle.mpr (h 0 (Nat.zero_le _))
      · refine ⟨fun h => absurd (hmid h) hm, fun _ => encRenorm_completes n ho' hw ?_⟩
        have : e'.pending = 0 := by
          revert hb hm hs
          generalize renormCase e.low e.high = c
          intro hs hb hm
          cases c with
          | lower => injection hb with hb; subst hb; rfl
          | upper => injection hb with hb; subst hb; rfl
          | middle => exact absurd rfl hm
          | stop => exact absurd rfl hs
        rw [encMove_pending, this]
        unfold Config.renormFuel at hn'
        unfold Config.pendingLimit
        simp; omega
/-- The loop never runs out of the iterations of R169: it ends, or the pending counter overflows. -/
theorem encRenorm_ends (n : Nat) {e : Encoder} (ho : e.low.toNat ≤ e.high.toNat)
    (hn : 2 ^ 32 ≤ (e.high.toNat - e.low.toNat + 1) * 2 ^ n) (hn' : n ≤ Config.renormFuel) :
    (∃ t, encRenorm n e = .ok t) ∨ encRenorm n e = .error (.raise .pendingOverflow) :=
  (Classical.em e.Fills).elim (fun h => .inr ((encRenorm_fills n ho hn hn').1 h))
    (fun h => .inl ((encRenorm_fills n ho hn hn').2 h))

/-! ### The commands' own parts -/

/-- All `encodeSymbol` can do when it completes. -/
theorem encodeSymbol_ok {cl f total : Nat} {e t : Encoder} (h : encodeSymbol cl f total e = .ok t) :
    ∃ b u, narrow e.low e.high cl f total = .ok b ∧
      encRenorm Config.renormFuel { e with low := b.1, high := b.2 } = .ok u ∧
      t = { u with phase := .encoding } := by
  unfold encodeSymbol at h
  obtain ⟨b, h1, h2⟩ := bind_eq_ok.mp h
  obtain ⟨u, h3, h4⟩ := bind_eq_ok.mp h2
  injection h4 with h4
  exact ⟨b, u, h1, h3, h4.symm⟩

/-- All `finishEncoder` can do when it completes. -/
theorem finishEncoder_ok {e t : Encoder} (h : finishEncoder e = .ok t) :
    t = { sinkFlush (emit (quarter ≤ e.low.toNat) { e with pending := e.pending + 1 }) with
      phase := .finished } ∧ e.pending.toNat < Config.pendingLimit := by
  unfold finishEncoder at h
  obtain ⟨e', h1, h2⟩ := bind_eq_ok.mp h
  have hp := addPending_ok h1
  injection h2 with h2
  subst h2
  refine ⟨by rw [hp.1], ?_⟩
  have := e'.pending.isLt
  unfold Config.pendingLimit
  omega

end Sys2Proof.Machine
end

