-- ==== Sys2Proof/Laws/CodePoint.lean ====
section
/-! SUPPORT. How one renormalization step acts on the code space of a session (R143, R165 to R168): the
number of the bits put, and the doubling of every point of the interval. -/

namespace Sys2Proof.Machine

/-! ### The number of a list of bits -/

theorem bitsValue_append (a b : List Bool) :
    bitsValue (a ++ b) = bitsValue a * 2 ^ b.length + bitsValue b := by
  have shift : ∀ (l : List Bool) (v : Nat),
      l.foldl (fun v b => 2 * v + b.toNat) v = v * 2 ^ l.length + bitsValue l := by
    intro l
    induction l with
    | nil => intro v; simp [bitsValue]
    | cons x l ih =>
      intro v
      simp only [bitsValue, List.foldl_cons, List.length_cons]
      rw [ih, ih (2 * 0 + x.toNat)]
      ring
  unfold bitsValue
  rw [List.foldl_append, shift b]
  rfl

@[simp] theorem bitsValue_nil : bitsValue [] = 0 := rfl

theorem bitsValue_cons (x : Bool) (l : List Bool) :
    bitsValue (x :: l) = x.toNat * 2 ^ l.length + bitsValue l := by
  rw [← List.singleton_append, bitsValue_append]
  simp [bitsValue]

theorem bitsValue_zeros (n : Nat) : bitsValue (List.replicate n false) = 0 := by
  induction n with
  | zero => rfl
  | succ n ih => simp [List.replicate_succ, bitsValue_cons, ih]

theorem bitsValue_ones (n : Nat) : bitsValue (List.replicate n true) + 1 = 2 ^ n := by
  induction n with
  | zero => rfl
  | succ n ih =>
    simp only [List.replicate_succ, bitsValue_cons, List.length_replicate, Bool.toNat_true]
    rw [Nat.pow_succ]
    omega

/-! ### One step -/

/-- The points of an interval stand one after the other. -/
theorem codePoint_add (e : Encoder) (x d : Nat) : codePoint e (x + d) = codePoint e x + d := by
  unfold codePoint
  omega

/-- The point `y` after a definite bit: nothing is pending, and the bit and its complements are put
(R143). -/
theorem codePoint_emit (c : RenormCase) (b : Bool) (e : Encoder) (y : Nat) :
    codePoint (encMove c (emit b e)) y =
      (bitsValue (sinkBits e) * 2 ^ (e.pending.toNat + 1)
        + bitsValue (b :: List.replicate e.pending.toNat (!b))) * 2 ^ 32 + y := by
  have h0 : (0 : Word).toNat = 0 := rfl
  simp only [codePoint, sinkBits_encMove, sinkBits_emit, encMove_pending, emit_pending, h0,
    bitsValue_append, List.length_cons, List.length_replicate]
  simp

/-- One renormalization step doubles the place of every point of the interval exactly: what the step
subtracts from the bounds is what it puts or makes pending (R165 to R168). -/
theorem codePoint_step {e e' : Encoder} {x : Nat}
    (h : encCaseBits (renormCase e.low e.high) e = .ok e')
    (hs : renormCase e.low e.high ≠ .stop)
    (hx : (renormCase e.low e.high).offset.toNat ≤ x) :
    codePoint (encMove (renormCase e.low e.high) e')
      (2 * (x - (renormCase e.low e.high).offset.toNat)) = 2 * codePoint e x := by
  revert h hs hx
  generalize renormCase e.low e.high = c
  intro h hs hx
  have h32 : 2 ^ (e.pending.toNat + 32) = 2 ^ e.pending.toNat * 4294967296 := by
    rw [pow_add]; norm_num
  obtain ⟨q, hq⟩ : ∃ q, 2 ^ e.pending.toNat = q + 1 :=
    ⟨2 ^ e.pending.toNat - 1, by have : 1 ≤ 2 ^ e.pending.toNat := Nat.one_le_two_pow
                                 omega⟩
  cases c with
  | lower =>
    obtain rfl : emit false e = e' := Except.ok.inj h
    have hoff : RenormCase.lower.offset.toNat = 0 := rfl
    have ho := bitsValue_ones e.pending.toNat
    have hw : bitsValue (List.replicate e.pending.toNat true) = q := by omega
    rw [codePoint_emit, hoff, codePoint, h32, half, bitsValue_cons, Bool.not_false, hw, pow_succ, hq]
    simp only [Bool.toNat_false, Nat.add_sub_cancel, Nat.sub_zero]
    ring
  | upper =>
    obtain rfl : emit true e = e' := Except.ok.inj h
    have hoff : RenormCase.upper.offset.toNat = 2147483648 := by decide
    rw [hoff] at hx
    obtain ⟨y, rfl⟩ : ∃ y, x = y + 2147483648 := ⟨x - 2147483648, by omega⟩
    rw [codePoint_emit, hoff, codePoint, h32, half, bitsValue_cons, Bool.not_true, bitsValue_zeros,
      List.length_replicate, pow_succ, hq]
    simp only [Bool.toNat_true, Nat.add_sub_cancel]
    ring
  | middle =>
    obtain ⟨h1, h2⟩ := addPending_ok h
    have hb : sinkBits e' = sinkBits e := by rw [h1]; rfl
    have hoff : RenormCase.middle.offset.toNat = 1073741824 := by decide
    rw [hoff] at hx
    obtain ⟨y, rfl⟩ : ∃ y, x = y + 1073741824 := ⟨x - 1073741824, by omega⟩
    have h33 : 2 ^ (e.pending.toNat + 1 + 32) = (q + 1) * 2 * 4294967296 := by
      rw [pow_add, pow_succ, hq]; norm_num
    have hq2 : 2 ^ (e.pending.toNat + 1) - 1 = 2 * q + 1 := by rw [pow_succ, hq]; omega
    rw [codePoint, codePoint, sinkBits_encMove, encMove_pending, hb, h2, h32, h33, hq2, hoff, half, hq]
    simp only [Nat.add_sub_cancel]
    ring
  | stop => exact absurd rfl hs

/-- One renormalization step puts one bit or makes one pending (R210). -/
theorem shiftCount_step {e e' : Encoder} (h : encCaseBits (renormCase e.low e.high) e = .ok e')
    (hs : renormCase e.low e.high ≠ .stop) :
    shiftCount (encMove (renormCase e.low e.high) e') = shiftCount e + 1 := by
  revert h hs
  generalize renormCase e.low e.high = c
  intro h hs
  cases c with
  | lower =>
    injection h with h; subst h
    simp [shiftCount, sinkBits_emit]; omega
  | upper =>
    injection h with h; subst h
    simp [shiftCount, sinkBits_emit]; omega
  | middle =>
    obtain ⟨h1, h2⟩ := addPending_ok h
    have hb : sinkBits e' = sinkBits e := by rw [h1]; rfl
    simp only [shiftCount, sinkBits_encMove, encMove_pending, hb, h2]
    omega
  | stop => exact absurd rfl hs

end Sys2Proof.Machine
end

