-- ==== Sys2Proof/Laws/Lut.lean ====
section
/-! SUPPORT. The prefix sums of `LUT_BUILD` (R112, R113), the uniform table (R117), the table lookup
(R118), and the symbol search (R204). -/

namespace Sys2Proof.Machine

/-! ### Prefix sums -/

/-- A partial sum is the sum of the frequencies before it (R112). -/
theorem partialSums_getElem (acc : Nat) (fs : List Word) (i : Nat)
    (h : i < (partialSums acc fs).length) :
    (partialSums acc fs)[i] = acc + ((fs.take i).map BitVec.toNat).sum := by
  induction fs generalizing acc i with
  | nil =>
    simp only [partialSums, List.length_singleton] at h
    have : i = 0 := by omega
    subst this
    simp [partialSums]
  | cons f fs ih =>
    cases i with
    | zero => simp [partialSums]
    | succ i =>
      simp only [partialSums, List.getElem_cons_succ]
      rw [ih]
      simp [Nat.add_assoc]

/-- The first partial sum is where the sum begins. -/
theorem partialSums_zero (acc : Nat) (fs : List Word) :
    (partialSums acc fs)[0]'(by rw [partialSums_length]; omega) = acc := by
  rw [partialSums_getElem]; simp

@[simp] theorem buildSums_length (freq : Vector Word 256) : (buildSums freq).length = 257 := by
  simp [buildSums, partialSums_length]

/-- Each sum is the one before it and one more frequency (R112). -/
theorem buildSums_succ (freq : Vector Word 256) (i : Nat) (h : i < 256) :
    (buildSums freq)[i + 1]'(by simp; omega)
      = (buildSums freq)[i]'(by simp; omega) + freq[i].toNat := by
  have hl : freq.toList.length = 256 := by simp
  simp only [buildSums]
  rw [partialSums_getElem, partialSums_getElem, List.take_add_one]
  rw [List.getElem?_eq_getElem (by omega)]
  simp

theorem buildSums_first (freq : Vector Word 256) : (buildSums freq)[0]'(by simp) = 0 :=
  partialSums_zero _ _

/-- An entry of the built table is its sum, where every sum fits (R112). -/
theorem buildTable_getElem {freq : Vector Word 256}
    (h : (buildSums freq).all (· ≤ top) = true) (i : Nat) (hi : i < 257) :
    (buildTable freq)[i].toNat = (buildSums freq)[i]'(by simpa using hi) := by
  have hm := List.all_eq_true.mp h ((buildSums freq)[i]'(by simpa using hi)) (List.getElem_mem _)
  have hm' : (buildSums freq)[i]'(by simpa using hi) ≤ 0xFFFFFFFF := of_decide_eq_true hm
  simp only [buildTable, Vector.getElem_mk, List.getElem_toArray, List.getElem_map,
    BitVec.toNat_ofNat]
  exact Nat.mod_eq_of_lt (by omega)

/-- A built table starts at 0 and does not fall (R113). -/
theorem buildTable_inv {freq : Vector Word 256} (h : (buildSums freq).all (· ≤ top) = true) :
    Table.Inv (buildTable freq) where
  first := BitVec.eq_of_toNat_eq (by
    rw [buildTable_getElem h 0 (by decide), buildSums_first]; rfl)
  rising i hi := by
    rw [buildTable_getElem h i (by omega), buildTable_getElem h (i + 1) (by omega),
      buildSums_succ freq i hi]
    omega

/-! ### The uniform table (R117) -/

theorem ucum_getElem (i : Nat) (h : i < 257) : ucum[i].toNat = i := by
  simp [ucum]; omega

theorem ucum_inv : Table.Inv ucum where
  first := BitVec.eq_of_toNat_eq (by rw [ucum_getElem]; rfl)
  rising i h := by rw [ucum_getElem, ucum_getElem]; omega

theorem ucum_total : tableTotal ucum = 256 := ucum_getElem 256 (by decide)

theorem ucum_cumLow (sym : Byte) : cumLow ucum sym = sym.toNat := ucum_getElem _ _

theorem ucum_cumNext (sym : Byte) : cumNext ucum sym = sym.toNat + 1 := ucum_getElem _ _

/-! ### Lookup (R118) -/

/-- Every way `Lookup(M)` can end: the checks in their order, then the selected table. -/
theorem lookup_cases (s : State) (m : TableSel) :
    lookup s m =
      if m = .built ∧ s.lut.valid = false then .error (.raise .lutNotValid)
      else if tableTotal (selectedTable s m) = 0 ∨
          s.maxTotal.toNat < tableTotal (selectedTable s m) then .error (.raise .badTotal)
      else .ok (selectedTable s m) := by
  have aux : ∀ tab : Table,
      (require (tableTotal tab ≠ 0 ∧ tableTotal tab ≤ s.maxTotal.toNat) .badTotal >>= fun _ =>
        (pure tab : Except Abort Table)) =
      if tableTotal tab = 0 ∨ s.maxTotal.toNat < tableTotal tab then .error (.raise .badTotal)
      else .ok tab := by
    intro tab
    split
    · rename_i h
      rw [show (decide (tableTotal tab ≠ 0 ∧ tableTotal tab ≤ s.maxTotal.toNat)) = false by
        simp; omega]
      rfl
    · rename_i h
      rw [show (decide (tableTotal tab ≠ 0 ∧ tableTotal tab ≤ s.maxTotal.toNat)) = true by
        simp; omega]
      rfl
  unfold lookup
  cases m with
  | uniform => simp only [selectTable, ok_bind]; rw [aux]; simp [selectedTable]; congr
  | built =>
    cases hv : s.lut.valid with
    | true => simp only [selectTable, hv, if_true, ok_bind]; rw [aux]; simp [selectedTable]; congr
    | false => simp [selectTable, hv]

/-- `Lookup(M)` gives the selected table exactly when it may be used. -/
theorem lookup_eq_ok {s : State} {m : TableSel} {tab : Table} :
    lookup s m = .ok tab ↔ Usable s m ∧ tab = selectedTable s m := by
  rw [lookup_cases]
  unfold Usable
  split
  · rename_i h; constructor
    · intro h'; cases h'
    · rintro ⟨⟨h1, _⟩, _⟩; simp [h1 h.1] at h
  · rename_i h
    split
    · rename_i h2; constructor
      · intro h'; cases h'
      · rintro ⟨⟨_, h3, h4⟩, _⟩; omega
    · rename_i h2; constructor
      · intro h'
        injection h' with h'
        exact ⟨⟨fun hm => by simpa [hm] using h, by omega, by omega⟩, h'.symm⟩
      · rintro ⟨_, h3⟩; rw [h3]

/-- `Lookup(M)` fails by a fault of the core, never by a stop. -/
theorem lookup_error {s : State} {m : TableSel} {a : Abort} (h : lookup s m = .error a) :
    a = .raise .lutNotValid ∨ a = .raise .badTotal := by
  rw [lookup_cases] at h
  split at h
  · injection h with h; exact .inl h.symm
  · split at h
    · injection h with h; exact .inr h.symm
    · cases h

/-- The selected table of a legal state has the shape of a table (R113, R117). -/
theorem selectedTable_inv {s : State} {m : TableSel} (hi : s.Inv) (h : Usable s m) :
    Table.Inv (selectedTable s m) := by
  cases m with
  | uniform => exact ucum_inv
  | built => exact hi.lut (h.1 rfl)

/-! ### Symbols of a table (R119) -/

/-- A table does not fall between any two entries. -/
theorem Table.Inv.mono {tab : Table} (h : Table.Inv tab) {i j : Nat} (hij : i ≤ j) (hj : j < 257) :
    tab[i].toNat ≤ tab[j].toNat := by
  induction j with
  | zero => have : i = 0 := by omega
            subst this; exact le_refl _
  | succ j ih =>
    rcases Nat.eq_or_lt_of_le hij with he | hl
    · subst he; exact le_refl _
    · exact (ih (by omega) (by omega)).trans (h.rising j (by omega))

theorem Table.Inv.cumLow_le {tab : Table} (h : Table.Inv tab) (sym : Byte) :
    cumLow tab sym ≤ cumNext tab sym := h.rising sym.toNat sym.isLt

theorem Table.Inv.cumNext_le {tab : Table} (h : Table.Inv tab) (sym : Byte) :
    cumNext tab sym ≤ tableTotal tab := h.mono (by have := sym.isLt; omega) (by decide)

/-- The frequency of a symbol of a table is a natural number (R119). -/
theorem symFreq_ok {tab : Table} (h : Table.Inv tab) (sym : Byte) :
    symFreq tab sym = .ok (cumNext tab sym - cumLow tab sym) := by
  unfold symFreq
  rw [if_pos (h.cumLow_le sym)]

/-! ### The symbol search (R204) -/

/-- What a search that succeeds has found. -/
theorem searchFrom_some {value s r : Nat} {l : List Word} (h : searchFrom value s l = some r) :
    ∃ (k : Nat) (hk : k + 1 < l.length), r = s + k ∧ l[k].toNat ≤ value ∧ value < l[k + 1].toNat := by
  induction l generalizing s with
  | nil => cases h
  | cons a l ih =>
    cases l with
    | nil => cases h
    | cons b rest =>
      unfold searchFrom at h
      split at h
      · rename_i hc
        injection h with h
        exact ⟨0, by simp, by omega, hc.1, hc.2⟩
      · obtain ⟨k, hk, h1, h2, h3⟩ := ih h
        exact ⟨k + 1, by simpa using hk, by omega, h2, h3⟩

/-- A search among entries from a value not above `value` to one above it succeeds. -/
theorem searchFrom_isSome {value s : Nat} {l : List Word} (hne : l ≠ [])
    (hfirst : (l.head hne).toNat ≤ value) (hlast : value < (l.getLast hne).toNat) :
    ∃ r, searchFrom value s l = some r := by
  induction l generalizing s with
  | nil => exact absurd rfl hne
  | cons a l ih =>
    cases l with
    | nil => simp at hfirst hlast; omega
    | cons b rest =>
      unfold searchFrom
      by_cases hb : value < b.toNat
      · exact ⟨s, by rw [if_pos ⟨by simpa using hfirst, hb⟩]⟩
      · rw [if_neg (by omega)]
        exact ih (by simp) (by simpa using Nat.le_of_not_lt hb) (by simpa using hlast)

/-- What `FindSymbol` answers has its value between its two entries (R204). -/
theorem findSymbol_ok {tab : Table} {value : Nat} {sym : Byte} (h : findSymbol tab value = .ok sym) :
    cumLow tab sym ≤ value ∧ value < cumNext tab sym := by
  unfold findSymbol at h
  split at h
  · rename_i r hr
    injection h with h
    obtain ⟨k, hk, h1, h2, h3⟩ := searchFrom_some hr
    have hk' : k < 256 := by simp at hk; omega
    have hs : sym.toNat = k := by
      rw [← h, h1]; simp; omega
    have e1 : cumLow tab sym = tab[k].toNat := by simp only [cumLow, hs]
    have e2 : cumNext tab sym = tab[k + 1].toNat := by simp only [cumNext, hs]
    rw [e1, e2]
    exact ⟨by simpa using h2, by simpa using h3⟩
  · cases h

/-- `FindSymbol` answers for every value below the total of a table (R204). -/
theorem findSymbol_total {tab : Table} {value : Nat} (hi : Table.Inv tab)
    (hv : value < tableTotal tab) : ∃ sym, findSymbol tab value = .ok sym := by
  have hl : tab.toList.length = 257 := by simp
  have hne : tab.toList ≠ [] := by intro h; rw [h] at hl; cases hl
  obtain ⟨r, hr⟩ := searchFrom_isSome (s := 0) (value := value) hne
    (by
      have : tab.toList.head hne = tab[0] := by rw [List.head_eq_getElem]; simp
      rw [this, hi.first]; simp)
    (by
      have : tab.toList.getLast hne = tab[256] := by rw [List.getLast_eq_getElem]; simp
      rw [this]; exact hv)
  exact ⟨BitVec.ofNat 8 r, by unfold findSymbol; rw [hr]⟩

/-- The symbol of a value is unique (R204). -/
theorem symbol_unique {tab : Table} (hi : Table.Inv tab) {value : Nat} {a b : Byte}
    (ha : cumLow tab a ≤ value ∧ value < cumNext tab a)
    (hb : cumLow tab b ≤ value ∧ value < cumNext tab b) : a = b := by
  have hA := a.isLt
  have hB := b.isLt
  apply BitVec.eq_of_toNat_eq
  rcases Nat.lt_trichotomy a.toNat b.toNat with h | h | h
  · have := hi.mono (i := a.toNat + 1) (j := b.toNat) (by omega) (by omega)
    have : cumNext tab a ≤ cumLow tab b := this
    omega
  · exact h
  · have := hi.mono (i := b.toNat + 1) (j := a.toNat) (by omega) (by omega)
    have : cumNext tab b ≤ cumLow tab a := this
    omega

end Sys2Proof.Machine
end

