-- ==== Sys2Proof/Laws/Decoder.lean ====
section
/-! SUPPORT. What the decoder's shared operations can do: the initial code (R200), the symbol value
(R203), one renormalization step and the whole loop (R206 to R208), and `DEC_SYM`'s own part. -/

namespace Sys2Proof.Machine

/-! ### The symbol value (R203) -/

/-- `DecValue` has no result but the exact one. -/
theorem decValue_eq_ok {total v : Nat} {d : Decoder} (h : decValue total d = .ok v) :
    d.low.toNat ≤ d.code.toNat ∧ d.low.toNat ≤ d.high.toNat ∧ 1 ≤ total ∧
    v = ((d.code.toNat - d.low.toNat + 1) * total - 1) / (d.high.toNat - d.low.toNat + 1) := by
  unfold decValue at h
  split at h
  · rename_i hc; injection h with h; exact ⟨hc.1, hc.2.1, hc.2.2, h.symm⟩
  · cases h

/-- The value of a code inside the interval is below the total (R203). -/
theorem decValue_ok {total : Nat} {d : Decoder} (h1 : d.low.toNat ≤ d.code.toNat)
    (h2 : d.code.toNat ≤ d.high.toNat) (ht : 1 ≤ total) :
    ∃ v, decValue total d = .ok v ∧ v < total := by
  refine ⟨_, by unfold decValue; rw [if_pos ⟨h1, by omega, ht⟩], ?_⟩
  rw [Nat.div_lt_iff_lt_mul (by omega)]
  have : (d.code.toNat - d.low.toNat + 1) * total ≤ total * (d.high.toNat - d.low.toNat + 1) := by
    rw [Nat.mul_comm]
    exact Nat.mul_le_mul_left _ (by omega)
  have : 1 ≤ (d.code.toNat - d.low.toNat + 1) * total := Nat.mul_pos (by omega) ht
  omega

/-- The value between the two entries of a symbol puts the offset of the code between the two
quotients of `Narrow` (R39). -/
theorem value_between {c range total a b v : Nat} (hr : 1 ≤ range) (ht : 1 ≤ total)
    (hv : v = ((c + 1) * total - 1) / range) (ha : a ≤ v) (hb : v < b) :
    range * a / total ≤ c ∧ c + 1 ≤ range * b / total := by
  have hp : 1 ≤ (c + 1) * total := Nat.mul_pos (by omega) ht
  constructor
  · rw [← Nat.lt_succ_iff, Nat.div_lt_iff_lt_mul (by omega)]
    have : a * range ≤ (c + 1) * total - 1 := by
      rw [hv] at ha
      exact (Nat.le_div_iff_mul_le (by omega)).mp ha
    rw [Nat.mul_comm range a]
    have : (c + 1) * total = Nat.succ c * total := rfl
    omega
  · rw [Nat.le_div_iff_mul_le (by omega)]
    rw [hv, Nat.div_lt_iff_lt_mul (by omega)] at hb
    rw [Nat.mul_comm range b]
    omega

/-! ### One step and the loop (R206, R208) -/

@[simp] theorem decMove_active (c : RenormCase) (d : Decoder) : (decMove c d).active = d.active :=
  rfl
@[simp] theorem decMove_input (c : RenormCase) (d : Decoder) : (decMove c d).input = d.input := rfl
@[simp] theorem decMove_bitPos (c : RenormCase) (d : Decoder) :
    (decMove c d).bitPos = d.bitPos + 1 := rfl
@[simp] theorem decMove_low (c : RenormCase) (d : Decoder) :
    (decMove c d).low = shiftLow (d.low - c.offset) := rfl
@[simp] theorem decMove_high (c : RenormCase) (d : Decoder) :
    (decMove c d).high = shiftHigh (d.high - c.offset) := rfl

/-- The code stands inside the bounds. -/
def CodeInside (d : Decoder) : Prop :=
  d.low.toNat ≤ d.code.toNat ∧ d.code.toNat ≤ d.high.toNat

/-- One iteration moves the code exactly as the bounds and takes in the next bit (R206, R208). -/
theorem decMove_code {d : Decoder} (hs : renormCase d.low d.high ≠ .stop) (hc : CodeInside d) :
    (decMove (renormCase d.low d.high) d).code.toNat
      = 2 * (d.code.toNat - (renormCase d.low d.high).offset.toNat)
        + (streamBit d.input d.bitPos).toNat := by
  obtain ⟨_, h2, h3⟩ := renorm_point hs hc.1 hc.2
  unfold decMove
  rw [shiftCodeIn_code (by simp only; rw [h2]; exact h3)]
  simp only [h2]

/-- One iteration keeps the code inside the bounds (R39). -/
theorem decMove_inside {d : Decoder} (hs : renormCase d.low d.high ≠ .stop) (hc : CodeInside d) :
    CodeInside (decMove (renormCase d.low d.high) d) := by
  obtain ⟨b1, b2, b3⟩ := renorm_bounds hs (hc.1.trans hc.2)
  have hcode := decMove_code hs hc
  have hbit : (streamBit d.input d.bitPos).toNat ≤ 1 := Bool.toNat_le _
  have h1 := hc.1
  have h2 := hc.2
  unfold CodeInside
  rw [hcode, decMove_low, decMove_high, b1, b2]
  omega

theorem decRenorm_stop {n : Nat} {d : Decoder} (h : renormCase d.low d.high = .stop) :
    decRenorm n d = .ok d := by
  cases n <;> simp [decRenorm, h]

theorem decRenorm_step {n : Nat} {d : Decoder} (h : renormCase d.low d.high ≠ .stop) :
    decRenorm (n + 1) d = decRenorm n (decMove (renormCase d.low d.high) d) := by
  simp [decRenorm, h]

/-- The induction over the loop, once: what every iteration keeps holds of the result, and the result
is stopped (R206). -/
theorem decRenorm_keeps {P : Decoder → Prop}
    (keeps : ∀ d, renormCase d.low d.high ≠ .stop → P d → P (decMove (renormCase d.low d.high) d))
    (n : Nat) {d t : Decoder} (hP : P d) (h : decRenorm n d = .ok t) :
    P t ∧ renormCase t.low t.high = .stop := by
  induction n generalizing d with
  | zero =>
    unfold decRenorm at h
    split at h
    · injection h with h; subst h; exact ⟨hP, by assumption⟩
    · cases h
  | succ n ih =>
    by_cases hs : renormCase d.low d.high = .stop
    · rw [decRenorm_stop hs] at h
      injection h with h; subst h; exact ⟨hP, hs⟩
    · rw [decRenorm_step hs] at h
      exact ih (keeps d hs hP) h

/-- The loop ends within the iterations of R169. -/
theorem decRenorm_ends (n : Nat) {d : Decoder} (ho : d.low.toNat ≤ d.high.toNat)
    (hn : 2 ^ 32 ≤ (d.high.toNat - d.low.toNat + 1) * 2 ^ n) :
    ∃ t, decRenorm n d = .ok t ∧ t.bitPos ≤ d.bitPos + n := by
  induction n generalizing d with
  | zero => exact ⟨d, decRenorm_stop (stop_of_full (by simpa using hn)), by omega⟩
  | succ n ih =>
    by_cases hs : renormCase d.low d.high = .stop
    · exact ⟨d, decRenorm_stop hs, by omega⟩
    · rw [decRenorm_step hs]
      obtain ⟨b1, b2, b3⟩ := renorm_bounds hs ho
      have hd : (decMove (renormCase d.low d.high) d).high.toNat
          - (decMove (renormCase d.low d.high) d).low.toNat + 1
          = 2 * (d.high.toNat - d.low.toNat + 1) := by
        rw [decMove_low, decMove_high, b1, b2]; omega
      obtain ⟨t, h1, h2⟩ := ih (d := decMove (renormCase d.low d.high) d)
        (by rw [decMove_low, decMove_high, b1, b2]; omega)
        (by
          rw [hd]
          calc 2 ^ 32 ≤ (d.high.toNat - d.low.toNat + 1) * 2 ^ (n + 1) := hn
            _ = 2 * (d.high.toNat - d.low.toNat + 1) * 2 ^ n := by ring)
      exact ⟨t, h1, by rw [decMove_bitPos] at h2; omega⟩

/-! ### `DEC_SYM`'s own part (R202) -/

/-- All `decodeSymbol` can do when it completes. -/
theorem decodeSymbol_eq_ok {tab : Table} {d : Decoder} {r : Byte × Decoder}
    (h : decodeSymbol tab d = .ok r) :
    ∃ v f b, decValue (tableTotal tab) d = .ok v ∧ findSymbol tab v = .ok r.1 ∧
      symFreq tab r.1 = .ok f ∧ narrow d.low d.high (cumLow tab r.1) f (tableTotal tab) = .ok b ∧
      decRenorm Config.renormFuel { d with low := b.1, high := b.2 } = .ok r.2 := by
  unfold decodeSymbol at h
  obtain ⟨v, h1, h2⟩ := bind_eq_ok.mp h
  obtain ⟨sym, h3, h4⟩ := bind_eq_ok.mp h2
  obtain ⟨f, h5, h6⟩ := bind_eq_ok.mp h4
  obtain ⟨b, h7, h8⟩ := bind_eq_ok.mp h6
  obtain ⟨d', h9, h10⟩ := bind_eq_ok.mp h8
  injection h10 with h10
  subst h10
  exact ⟨v, f, b, h1, h3, h5, h7, h9⟩

/-- Decoding from a code inside a wide interval always completes (R169, R203, R204): the symbol found
has its value between its entries, the new bounds are wide with the code inside (R39), and at most 32
bits are read. -/
theorem decodeSymbol_ok {tab : Table} {d : Decoder} (hi : Table.Inv tab)
    (h0 : 1 ≤ tableTotal tab) (h1 : tableTotal tab ≤ Config.greatestMaxTotal)
    (hc : CodeInside d) (hw : Wide d.low d.high) :
    ∃ v sym d', decValue (tableTotal tab) d = .ok v ∧ v < tableTotal tab ∧
      decodeSymbol tab d = .ok (sym, d') ∧ cumLow tab sym ≤ v ∧ v < cumNext tab sym ∧
      CodeInside d' ∧ Wide d'.low d'.high ∧ d'.active = d.active ∧ d'.input = d.input ∧
      d.bitPos ≤ d'.bitPos ∧ d'.bitPos ≤ d.bitPos + 32 := by
  have hcl := hc.1
  have hch := hc.2
  obtain ⟨v, hv, hvt⟩ := decValue_ok hcl hch h0
  obtain ⟨sym, hs⟩ := findSymbol_total hi hvt
  obtain ⟨ha, hb⟩ := findSymbol_ok hs
  have hle := hi.cumNext_le sym
  have hlo := hi.cumLow_le sym
  have hr : tableTotal tab ≤ d.high.toNat - d.low.toNat + 1 := by
    unfold Wide quarter at hw
    unfold Config.greatestMaxTotal at h1
    omega
  obtain ⟨b, hn, n1, n2, n3⟩ := narrow_ok (cl := cumLow tab sym)
    (f := cumNext tab sym - cumLow tab sym) (hlh := hcl.trans hch) hr (by omega) (by omega)
  obtain ⟨-, e1, e2⟩ := narrow_eq_ok hn
  obtain ⟨-, -, -, ev⟩ := decValue_eq_ok hv
  obtain ⟨q1, q2⟩ := value_between (by omega) h0 ev ha hb
  have hcf : cumLow tab sym + (cumNext tab sym - cumLow tab sym) = cumNext tab sym := by omega
  rw [hcf] at e2
  have hin : CodeInside { d with low := b.1, high := b.2 } := by
    unfold CodeInside
    simp only
    rw [e1]
    omega
  obtain ⟨d', hd, hbit⟩ := decRenorm_ends Config.renormFuel
    (d := { d with low := b.1, high := b.2 }) (by simp only; omega)
    (by
      simp only [Config.renormFuel]
      have : 1 ≤ b.2.toNat - b.1.toNat + 1 := by omega
      calc 2 ^ 32 = 1 * 2 ^ 32 := by norm_num
        _ ≤ _ := Nat.mul_le_mul_right _ this)
  obtain ⟨⟨k1, k2, k3, k4⟩, hstop⟩ := decRenorm_keeps
    (P := fun t => CodeInside t ∧ t.active = d.active ∧ t.input = d.input ∧ d.bitPos ≤ t.bitPos)
    (fun t ht ⟨p1, p2, p3, p4⟩ => ⟨decMove_inside ht p1, p2, p3, by
      rw [decMove_bitPos]; omega⟩) Config.renormFuel ⟨hin, rfl, rfl, le_refl _⟩ hd
  refine ⟨v, sym, d', hv, hvt, ?_, ha, hb, k1, wide_of_stop hstop, k2, k3, k4, hbit⟩
  unfold decodeSymbol
  rw [hv, ok_bind, hs, ok_bind, symFreq_ok hi, ok_bind, hn, ok_bind, hd, ok_bind]
  rfl

end Sys2Proof.Machine
end

