-- ==== Sys2Proof/Laws/Commands.lean ====
section
/-! SUPPORT. What each command's own rule can do, said once: how it completes, and with which fault it
ends otherwise. -/

namespace Sys2Proof.Machine

/-- A check with a decidable condition: passed, or the fault. -/
theorem require_bind {α : Type} (p : Prop) [Decidable p] (c : FaultCode)
    (f : Unit → Except Abort α) :
    (require (decide p) c >>= f) = if p then f () else .error (.raise c) := by
  by_cases h : p <;> simp [h]

/-! ### `LUT_BUILD` and `LUT_RD` -/

/-- `LUT_BUILD` completes exactly when every sum fits (R112). -/
theorem lutBuildRule_cases (s : State) :
    lutBuildRule s =
      if (buildSums s.lut.freq).all (· ≤ top) = true then
        .ok { s with lut := { s.lut with cum := buildTable s.lut.freq, valid := true } }
      else .error (.raise .lutOverflow) := by
  unfold lutBuildRule
  cases h : (buildSums s.lut.freq).all (· ≤ top) <;> rfl

/-- `LUT_RD` checks its index, then `LUT_VALID` (R114). -/
theorem lutRdRule_cases (idx : BitVec 9) (s : State) :
    lutRdRule idx s =
      if h : idx.toNat < 257 then
        if s.lut.valid = true then .ok (respond s.lut.cum[idx.toNat] s)
        else .error (.raise .lutNotValid)
      else .error (.raise .badIndex) := by
  unfold lutRdRule readCum
  split
  · cases h : s.lut.valid <;> rfl
  · rfl

/-! ### The encoder commands -/

/-- All `ENC_SYM` can do when it completes (R161). -/
theorem encSymRule_ok {m : TableSel} {sym : Byte} {s t : State} (h : encSymRule m sym s = .ok t) :
    s.enc.phase ≠ .finished ∧ Usable s m ∧
    ∃ f e, symFreq (selectedTable s m) sym = .ok f ∧ f ≠ 0 ∧
      encodeSymbol (cumLow (selectedTable s m) sym) f (tableTotal (selectedTable s m)) s.enc = .ok e ∧
      t = { s with enc := e } := by
  unfold encSymRule at h
  rw [require_bind] at h
  split at h
  · rename_i hp
    obtain ⟨tab, h1, h2⟩ := bind_eq_ok.mp h
    obtain ⟨hu, ht⟩ := lookup_eq_ok.mp h1
    subst ht
    obtain ⟨f, h3, h4⟩ := bind_eq_ok.mp h2
    rw [require_bind] at h4
    split at h4
    · rename_i hf
      obtain ⟨e, h5, h6⟩ := bind_eq_ok.mp h4
      injection h6 with h6
      exact ⟨hp, hu, f, e, h3, hf, h5, h6.symm⟩
    · cases h4
  · cases h

/-- `ENC_SYM` from its parts: past its checks it is `encodeSymbol` (R161). -/
theorem encSymRule_eq {m : TableSel} {sym : Byte} {s : State} (hp : s.enc.phase ≠ .finished)
    (hu : Usable s m) (hf : cumLow (selectedTable s m) sym < cumNext (selectedTable s m) sym) :
    encSymRule m sym s =
      encodeSymbol (cumLow (selectedTable s m) sym)
        (cumNext (selectedTable s m) sym - cumLow (selectedTable s m) sym)
        (tableTotal (selectedTable s m)) s.enc >>= fun e => .ok { s with enc := e } := by
  have hs : symFreq (selectedTable s m) sym
      = .ok (cumNext (selectedTable s m) sym - cumLow (selectedTable s m) sym) := by
    unfold symFreq; rw [if_pos (by omega)]
  unfold encSymRule
  rw [require_bind, if_pos hp, lookup_eq_ok.mpr ⟨hu, rfl⟩, ok_bind, hs, ok_bind, require_bind,
    if_pos (by omega)]
  rfl

/-- The bounds of a legal encoder that accepts symbols (R37). -/
theorem encoder_range {e : Encoder} (hi : e.Inv) (hp : e.phase ≠ .finished) {total : Nat}
    (ht : total ≤ Config.greatestMaxTotal) : total ≤ e.high.toNat - e.low.toNat + 1 := by
  have hw := hi.wide hp
  unfold Wide quarter at hw
  unfold Config.greatestMaxTotal at ht
  omega

/-- On a legal encoder `encodeSymbol` narrows to a non-empty interval inside the old one and then runs
the loop, which ends (R163, R169). -/
theorem encodeSymbol_cases {cl f total : Nat} {e : Encoder} (ho : e.low.toNat ≤ e.high.toNat)
    (hr : total ≤ e.high.toNat - e.low.toNat + 1) (hf : 1 ≤ f) (ht : cl + f ≤ total) :
    ∃ b, narrow e.low e.high cl f total = .ok b ∧ e.low.toNat ≤ b.1.toNat ∧
      b.1.toNat ≤ b.2.toNat ∧ b.2.toNat ≤ e.high.toNat ∧
      ((∃ u, encRenorm Config.renormFuel { e with low := b.1, high := b.2 } = .ok u ∧
          encodeSymbol cl f total e = .ok { u with phase := .encoding }) ∨
        encodeSymbol cl f total e = .error (.raise .pendingOverflow)) ∧
      (e.pending.toNat + 32 ≤ Config.pendingLimit →
        ∃ u, encRenorm Config.renormFuel { e with low := b.1, high := b.2 } = .ok u ∧
          encodeSymbol cl f total e = .ok { u with phase := .encoding }) := by
  obtain ⟨b, hn, n1, n2, n3⟩ := narrow_ok ho hr hf ht
  have hfull : 2 ^ 32 ≤ (b.2.toNat - b.1.toNat + 1) * 2 ^ Config.renormFuel := by
    simp only [Config.renormFuel]
    have : 1 ≤ b.2.toNat - b.1.toNat + 1 := by omega
    calc 2 ^ 32 = 1 * 2 ^ 32 := by norm_num
      _ ≤ _ := Nat.mul_le_mul_right _ this
  have hok : ∀ u, encRenorm Config.renormFuel { e with low := b.1, high := b.2 } = .ok u →
      encodeSymbol cl f total e = .ok { u with phase := .encoding } := by
    intro u hu
    unfold encodeSymbol
    rw [hn, ok_bind, hu]
    rfl
  refine ⟨b, hn, n1, n2, n3, ?_, ?_⟩
  · rcases encRenorm_ends Config.renormFuel (e := { e with low := b.1, high := b.2 }) n2 hfull
      (le_refl _) with
      ⟨u, hu⟩ | hu
    · exact .inl ⟨u, hu, hok u hu⟩
    · right
      unfold encodeSymbol
      rw [hn, ok_bind, hu]
      rfl
  · intro hp
    obtain ⟨u, hu⟩ := encRenorm_completes Config.renormFuel
      (e := { e with low := b.1, high := b.2 }) n2 hfull hp
    exact ⟨u, hu, hok u hu⟩

/-- How `ENC_SYM` ends on a legal state: it completes, or raises a fault; it never stops (R169). -/
theorem encSymRule_ends {m : TableSel} {sym : Byte} {s : State} (hi : s.Inv) :
    (∃ t, encSymRule m sym s = .ok t) ∨ ∃ c, encSymRule m sym s = .error (.raise c) := by
  unfold encSymRule
  rw [require_bind]
  split
  · rename_i hp
    cases hl : lookup s m with
    | error a =>
      rcases lookup_error hl with h | h <;> subst h <;> exact .inr ⟨_, rfl⟩
    | ok tab =>
      obtain ⟨hu, ht⟩ := lookup_eq_ok.mp hl
      subst ht
      have hti := selectedTable_inv hi hu
      rw [ok_bind, symFreq_ok hti, ok_bind, require_bind]
      split
      · rename_i hf
        have h1 := hti.cumLow_le sym
        have h2 := hti.cumNext_le sym
        obtain ⟨b, _, _, _, _, hc, _⟩ := encodeSymbol_cases (e := s.enc) (total := tableTotal (selectedTable s m))
          (cl := cumLow (selectedTable s m) sym)
          (f := cumNext (selectedTable s m) sym - cumLow (selectedTable s m) sym)
          hi.enc.ordered (encoder_range hi.enc hp (hu.2.2.trans hi.maxTotal.2)) (by omega) (by omega)
        rcases hc with ⟨u, _, hu⟩ | hu
        · rw [hu]; exact .inl ⟨_, rfl⟩
        · rw [hu]; exact .inr ⟨_, rfl⟩
      · exact .inr ⟨_, rfl⟩
  · exact .inr ⟨_, rfl⟩

/-- All `ENC_FIN` can do when it completes (R170). -/
theorem encFinRule_ok {s t : State} (h : encFinRule s = .ok t) :
    s.enc.phase ≠ .finished ∧ ∃ e, finishEncoder s.enc = .ok e ∧ t = { s with enc := e } := by
  unfold encFinRule at h
  rw [require_bind] at h
  split at h
  · rename_i hp
    obtain ⟨e, h1, h2⟩ := bind_eq_ok.mp h
    injection h2 with h2
    exact ⟨hp, e, h1, h2.symm⟩
  · cases h

/-- How `ENC_FIN` ends: it completes, or raises a fault; it never stops. -/
theorem encFinRule_ends (s : State) :
    (∃ t, encFinRule s = .ok t) ∨ ∃ c, encFinRule s = .error (.raise c) := by
  unfold encFinRule
  rw [require_bind]
  split
  · have hlt := s.enc.pending.isLt
    rcases Nat.lt_or_ge s.enc.pending.toNat Config.pendingLimit with hl | hl
    · left
      unfold finishEncoder
      rw [addPending_of_lt hl]
      exact ⟨_, rfl⟩
    · right
      unfold finishEncoder
      rw [addPending_full (by unfold Config.pendingLimit at *; omega)]
      exact ⟨_, rfl⟩
  · exact .inr ⟨_, rfl⟩

/-! ### The decoder commands -/

/-- All `DEC_SYM` can do when it completes (R202). -/
theorem decSymRule_ok {m : TableSel} {s t : State} (h : decSymRule m s = .ok t) :
    s.dec.active = true ∧ Usable s m ∧
    ∃ r, decodeSymbol (selectedTable s m) s.dec = .ok r ∧
      t = respond (r.1.setWidth 32) { s with dec := r.2 } := by
  unfold decSymRule at h
  obtain ⟨_, h0, h⟩ := bind_eq_ok.mp h
  obtain ⟨tab, h1, h2⟩ := bind_eq_ok.mp h
  obtain ⟨hu, ht⟩ := lookup_eq_ok.mp h1
  subst ht
  obtain ⟨r, h3, h4⟩ := bind_eq_ok.mp h2
  injection h4 with h4
  exact ⟨require_eq_ok.mp h0, hu, r, h3, h4.symm⟩

/-- `DEC_SYM` from its parts: past its checks it is `decodeSymbol` (R202). -/
theorem decSymRule_eq {m : TableSel} {s : State} (ha : s.dec.active = true) (hu : Usable s m) :
    decSymRule m s = decodeSymbol (selectedTable s m) s.dec >>= fun r =>
      .ok (respond (r.1.setWidth 32) { s with dec := r.2 }) := by
  unfold decSymRule
  rw [ha, require_true, ok_bind, lookup_eq_ok.mpr ⟨hu, rfl⟩, ok_bind]
  rfl

/-- How `DEC_SYM` ends on a legal state: it completes, or raises a fault; it never stops (R169,
R204). -/
theorem decSymRule_ends {m : TableSel} {s : State} (hi : s.Inv) :
    (∃ t, decSymRule m s = .ok t) ∨ ∃ c, decSymRule m s = .error (.raise c) := by
  cases ha : s.dec.active with
  | false => right; unfold decSymRule; rw [ha]; exact ⟨_, rfl⟩
  | true =>
    cases hl : lookup s m with
    | error a =>
      right
      unfold decSymRule
      rw [ha, require_true, ok_bind, hl]
      rcases lookup_error hl with h | h <;> subst h <;> exact ⟨_, rfl⟩
    | ok tab =>
      obtain ⟨hu, -⟩ := lookup_eq_ok.mp hl
      obtain ⟨v, sym, d', _, _, h3, _⟩ := decodeSymbol_ok (selectedTable_inv hi hu) hu.2.1
        (hu.2.2.trans hi.maxTotal.2) ⟨hi.dec.lowCode ha, hi.dec.codeHigh ha⟩ (hi.dec.wide ha)
      left
      rw [decSymRule_eq ha hu, h3]
      exact ⟨_, rfl⟩

end Sys2Proof.Machine
end

