-- ==== Sys2Proof/Laws/Decode.lean ====
section
/-! SUPPORT. The bits of a command word by field (R82, R83). -/

namespace Sys2Proof

/-- A bit of a field of a word. -/
theorem getLsbD_fieldAt {n : Nat} (lo : Nat) (x : BitVec n) (i : Nat) (h : i < 64) :
    (fieldAt lo x).getLsbD i = (decide (lo ≤ i) && x.getLsbD (i - lo)) := by
  rcases Nat.lt_or_ge i lo with hl | hl
  · simp [fieldAt, h, hl, Nat.not_le.mpr hl]
  · simp only [fieldAt, BitVec.getLsbD_shiftLeft, h, BitVec.getLsbD_setWidth]
    simp [hl, show i - lo < 64 by omega, Nat.not_lt.mpr hl]

@[simp] theorem fieldAt_getElem {n : Nat} (lo : Nat) (x : BitVec n) (i : Nat) (h : i < 64) :
    (fieldAt lo x)[i] = (decide (lo ≤ i) && x.getLsbD (i - lo)) := by
  rw [← BitVec.getLsbD_eq_getElem h, getLsbD_fieldAt lo x i h]

/-- A field at bit 0 of at most a byte has no bits above it. -/
theorem opField_or (x : CmdWord) (op : Byte) (h : ∀ i < 8, x.getLsbD i = false) :
    opField (x ||| fieldAt 0 op) = op := by
  have hx : ∀ (i : Nat) (hi : i < 8), x[i]'(by omega) = false := fun i hi => by
    rw [← BitVec.getLsbD_eq_getElem]; exact h i hi
  ext i hi
  simp [opField, hx i hi, show i < 64 by omega, BitVec.getLsbD_eq_getElem hi]

/-- A field above bit 7 leaves the opcode alone. -/
theorem fieldAt_low {n : Nat} (lo : Nat) (x : BitVec n) (h : 8 ≤ lo) (i : Nat) (hi : i < 8) :
    (fieldAt lo x).getLsbD i = false := by
  rw [getLsbD_fieldAt lo x i (by omega)]
  simp [show ¬ lo ≤ i by omega]

/-- The opcode of each format (R82). -/
theorem opField_formatN (op : Byte) : opField (formatN op) = op := by
  have := opField_or 0 op (by simp)
  simpa [formatN] using this

theorem opField_formatS (m : TableSel) (sym op : Byte) : opField (formatS m sym op) = op :=
  opField_or _ op fun i hi => by
    simp only [BitVec.getLsbD_or, fieldAt_low 16 m.bit (by decide) i hi,
      fieldAt_low 8 sym (by decide) i hi, Bool.or_self]

theorem opField_formatD (m : TableSel) (op : Byte) : opField (formatD m op) = op :=
  opField_or _ op (fieldAt_low 16 m.bit (by decide))

theorem opField_formatW (val : Word) (sym op : Byte) : opField (formatW val sym op) = op :=
  opField_or _ op fun i hi => by
    simp only [BitVec.getLsbD_or, fieldAt_low 32 val (by decide) i hi,
      fieldAt_low 8 sym (by decide) i hi, Bool.or_self]

theorem opField_formatX (index op : Byte) : opField (formatX index op) = op :=
  opField_or _ op (fieldAt_low 8 index (by decide))

theorem opField_formatI (idx : BitVec 9) (op : Byte) : opField (formatI idx op) = op :=
  opField_or _ op (fieldAt_low 8 idx (by decide))

end Sys2Proof
end

