-- ==== Sys2Proof/Laws/PerInstr.lean ====
section
/-! SUPPORT. Statements made per command: the word of every command has its row's opcode, and a 0 in
every reserved bit of its format (R81, R84, R85). -/

namespace Sys2Proof.Laws.RowWord

/-- The encoded word selects the command's own row of the match and mask table (R85). -/
def Statement (i : Instr) : Prop :=
  Mnemonic.ofOpcode (opField (encode i)) = some i.mnemonic ∧
    encode i &&& i.mnemonic.mask = i.mnemonic.pattern

theorem nop : Statement .nop := by unfold Statement; decide

theorem encInit : Statement .encInit := by unfold Statement; decide

theorem encSym (m : TableSel) (sym : Byte) : Statement (.encSym m sym) := by
  refine ⟨by rw [encode, opField_formatS]; rfl, ?_⟩
  ext i hi
  simp only [encode, formatS, Instr.mnemonic, Mnemonic.mask, Mnemonic.pattern]
  interval_cases i <;> simp

theorem encFin : Statement .encFin := by unfold Statement; decide

theorem decInit : Statement .decInit := by unfold Statement; decide

theorem decSym (m : TableSel) : Statement (.decSym m) := by
  cases m <;> (unfold Statement; decide)

theorem lutWfreq (sym : Byte) (val : Word) : Statement (.lutWfreq sym val) := by
  refine ⟨by rw [encode, opField_formatW]; rfl, ?_⟩
  ext i hi
  simp only [encode, formatW, Instr.mnemonic, Mnemonic.mask, Mnemonic.pattern]
  interval_cases i <;> simp

theorem lutRfreq (sym : Byte) : Statement (.lutRfreq sym) := by
  refine ⟨by rw [encode, opField_formatX]; rfl, ?_⟩
  ext i hi
  simp only [encode, formatX, Instr.mnemonic, Mnemonic.mask, Mnemonic.pattern]
  interval_cases i <;> simp

theorem lutBuild : Statement .lutBuild := by unfold Statement; decide

theorem lutRd (idx : BitVec 9) : Statement (.lutRd idx) := by
  refine ⟨by rw [encode, opField_formatI]; rfl, ?_⟩
  ext i hi
  simp only [encode, formatI, Instr.mnemonic, Mnemonic.mask, Mnemonic.pattern]
  interval_cases i <;> simp

theorem rdreg (reg : Byte) : Statement (.rdreg reg) := by
  refine ⟨by rw [encode, opField_formatX]; rfl, ?_⟩
  ext i hi
  simp only [encode, formatX, Instr.mnemonic, Mnemonic.mask, Mnemonic.pattern]
  interval_cases i <;> simp

end Sys2Proof.Laws.RowWord
end

