-- ==== Sys2Proof/Tests/Slice0.lean ====
section
/-! SUPPORT. Tests of the model. Expected results are the spec's own: the worked encodings of R88, the
vectors of 95_test_vectors.md (named in the comments), or the tables of the rules. The second half
gives, for each obligation with hypotheses, a state and operands that meet them. -/

namespace Sys2Proof.Tests

open Sys2Proof Sys2Proof.Machine

/-! ## Well-formed and ill-formed lines (R89) -/

theorem test_symbol_in_range : (AsmLine.encSym .built 255).wellFormed = true := by decide
theorem test_symbol_out_of_range : (AsmLine.encSym .built 256).wellFormed = false := by decide
theorem test_wfreq_symbol_out_of_range : (AsmLine.lutWfreq 256 0).wellFormed = false := by decide
theorem test_wfreq_value_in_range : (AsmLine.lutWfreq 255 0xFFFFFFFF).wellFormed = true := by decide
theorem test_wfreq_value_out_of_range :
    (AsmLine.lutWfreq 255 0x100000000).wellFormed = false := by decide
theorem test_rfreq_symbol_out_of_range : (AsmLine.lutRfreq 256).wellFormed = false := by decide
theorem test_index_in_range : (AsmLine.lutRd 511).wellFormed = true := by decide
theorem test_index_out_of_range : (AsmLine.lutRd 512).wellFormed = false := by decide
theorem test_register_in_range : (AsmLine.rdreg (.number 255)).wellFormed = true := by decide
theorem test_register_out_of_range : (AsmLine.rdreg (.number 256)).wellFormed = false := by decide

/-- An assembly error gives no word (R89). -/
theorem test_ill_formed_gives_no_word :
    (AsmLine.encSym .uniform 256).assemble = none ∧ (AsmLine.lutWfreq 0 0x100000000).assemble = none ∧
    (AsmLine.lutRd 512).assemble = none ∧ (AsmLine.rdreg (.number 256)).assemble = none := by decide

/-- The words printed beside PRG-1 and PRG-2. -/
theorem test_assembly_text :
    assembleLine "lut.wfreq 2, 1        ; T121" = some 0x0000000100000206 ∧
    assembleLine "enc.sym t, 0x41" = some 0x0000000000014102 ∧
    assembleLine "dec.sym t" = some 0x0000000000010005 ∧
    assembleLine "lut.rd 256" = some 0x0000000000010009 ∧
    assembleLine "rdreg DEC_BITPOS" = some 0x0000000000000A0A ∧
    assembleLine "enc.fin" = some 0x0000000000000003 ∧
    assembleLine "enc.sym t, 256" = none ∧ assembleLine "enc.sym x, 1" = none := by
  decide +kernel

/-- R90, R71: `enc.u32 11` is four uniform symbols, low byte first. -/
theorem test_enc_u32 :
    (Pseudo.encU32 11).expand =
      [.encSym .uniform 11, .encSym .uniform 0, .encSym .uniform 0, .encSym .uniform 0] := by decide

/-! ## Decoding: each constructor's word, written out from R82 to R85 -/

theorem test_decode_nop : decode 0b0 = .command .nop := by decide
theorem test_decode_encInit : decode 0b1 = .command .encInit := by decide
/-- M in bit 16, SYM in bits 15 to 8. -/
theorem test_decode_encSym :
    decode 0b1_01000001_00000010 = .command (.encSym .built 0x41) := by decide
theorem test_decode_encFin : decode 0b00000011 = .command .encFin := by decide
theorem test_decode_decInit : decode 0b00000100 = .command .decInit := by decide
/-- M in bit 16, bits 15 to 8 reserved. -/
theorem test_decode_decSym : decode 0b1_00000000_00000101 = .command (.decSym .built) := by decide
/-- VAL in bits 63 to 32, bits 31 to 16 reserved, SYM in bits 15 to 8. -/
theorem test_decode_lutWfreq :
    decode 0b10000000000000000000000000000101_0000000000000000_01000001_00000110
      = .command (.lutWfreq 0x41 0x80000005) := by decide
theorem test_decode_lutRfreq : decode 0b10000001_00000111 = .command (.lutRfreq 0x81) := by decide
theorem test_decode_lutBuild : decode 0b00001000 = .command .lutBuild := by decide
/-- IDX in bits 16 to 8. -/
theorem test_decode_lutRd : decode 0b100000001_00001001 = .command (.lutRd 257) := by decide
theorem test_decode_rdreg : decode 0b00001001_00001010 = .command (.rdreg 9) := by decide

/-- FLT-2, FLT-3, FLT-4, ENCD-2 and the reserved opcodes of R84. -/
theorem test_decode_illegal :
    decode 0x0000000000000105 = .illegal .reservedBit ∧
    decode 0x8000000000000001 = .illegal .reservedBit ∧
    decode 0x0000000000024102 = .illegal .reservedBit ∧
    decode 0x00000000FFFF0006 = .illegal .reservedBit ∧
    decode 0x0000000000010007 = .illegal .reservedBit ∧
    decode 0x0000000000000100 = .illegal .reservedBit ∧
    decode 0x000000000000000B = .illegal .reservedOpcode ∧
    decode 0x00000000000000FF = .illegal .reservedOpcode := by decide

/-- The encoder writes the words of R88. -/
theorem test_encode :
    encode (.encSym .built 0x41) = 0x0000000000014102 ∧
    encode (.decSym .built) = 0x0000000000010005 ∧
    encode (.lutWfreq 0x41 5) = 0x0000000500004106 ∧
    encode (.lutRfreq 7) = 0x0000000000000707 ∧
    encode (.lutRd 256) = 0x0000000000010009 ∧
    encode (.rdreg 9) = 0x000000000000090A ∧
    encode .lutBuild = 0x0000000000000008 := by decide

/-- What the host asks of a table word. -/
theorem test_decodeTableWord :
    decodeTableWord 64 0x0000000500004106 = some (.lutWfreq 0x41 5) ∧
    decodeTableWord 64 0x0B = none := by decide

/-! ## States the tests start from -/

/-- A condition on the next state of an outcome. -/
def holdsAfter (o : Host.Outcome State Fault Refusal) (p : State → Bool) : Bool :=
  match o with
  | .next t => p t
  | .fault _ => false
  | .refused _ => false

/-- What `holdsAfter` says. -/
theorem next_of {o : Host.Outcome State Fault Refusal} {p : State → Bool}
    (h : holdsAfter o p = true) : ∃ t, o = .next t ∧ p t = true := by
  cases o with
  | next t => exact ⟨t, rfl, h⟩
  | fault f => cases h
  | refused r => cases h

/-- The frequencies of T121: 1, 2, 1, then zeros. -/
def freq121 : Vector Word 256 := ⟨(([1, 2, 1] : List Word) ++ List.replicate 253 0).toArray, by decide +kernel⟩

/-- The built table T121: 0, 1, 3, then 4. -/
def cum121 : Table := ⟨(([0, 1, 3] : List Word) ++ List.replicate 254 4).toArray, by decide +kernel⟩

/-- After "load T121". -/
def s121 : State := { State.reset with lut := { freq := freq121, cum := cum121, valid := true } }

/-- The frequencies of T260: 1 each, but 5 for 0x41. -/
def freq260 : Vector Word 256 :=
  ⟨((List.replicate 65 1 : List Word) ++ [5] ++ List.replicate 190 1).toArray, by decide +kernel⟩

/-- After "load T260", with the table the spec's prefix sums give. -/
def s260 : State :=
  { State.reset with lut := { freq := freq260, cum := buildTable freq260, valid := true } }

/-- A decoder session that has read the first 32 bits of `IN`. -/
def decoding (code : Word) (input : List Byte) (s : State) : State :=
  { s with dec := { s.dec with code := code, bitPos := 32, active := true, input := input } }

/-- The state after ENC-5: `ENC_FIN` from reset. -/
def finished : State :=
  { State.reset with enc := { State.reset.enc with phase := .finished, out := [0x40] } }

/-- A faulted core: ENC-11. -/
def faulted : State := { finished with fault := true, faultCode := 0x02 }

/-- The pending counter at its limit: the injected states of ENC-15 and ENC-16. -/
def atLimit (s : State) : State :=
  { s with enc := { s.enc with pending := 0xFFFFFFFF, phase := .encoding } }

/-- A table of the frequencies 3, 2, 3: from the full interval symbol 1 takes case 3 twice and is back at
the full interval. -/
def cum323 : Table := ⟨(([0, 3, 5] : List Word) ++ List.replicate 254 8).toArray, by decide +kernel⟩

/-- An encoder under that table, with the given pending count. -/
def s323 (pending : Word) : State :=
  { State.reset with
    enc := { State.reset.enc with pending := pending, phase := .encoding }
    lut := { State.reset.lut with cum := cum323, valid := true } }

/-- The host has issued one word, presenting one byte. -/
def issues (w : CmdWord) (s : State) : State := { s with pending := [.command w [0x80]] }

/-! ## One command each, from the vectors -/

/-- CTL-1: the register map after reset. -/
theorem test_rdreg_after_reset :
    regValue State.reset 0x00 = some 0 ∧ regValue State.reset 0x01 = some 0x10000 ∧
    regValue State.reset 0x02 = some 0 ∧ regValue State.reset 0x03 = some 0xFFFFFFFF ∧
    regValue State.reset 0x04 = some 0 ∧ regValue State.reset 0x05 = some 0 ∧
    regValue State.reset 0x06 = some 0 ∧ regValue State.reset 0x07 = some 0 ∧
    regValue State.reset 0x08 = some 0xFFFFFFFF ∧ regValue State.reset 0x09 = some 0 ∧
    regValue State.reset 0x0A = some 0 ∧ regValue State.reset 0x0B = none := by decide +kernel

/-- CTL-3: `STATUS = 0x0910`. -/
theorem test_rdreg_bad_index :
    holdsAfter (exec (.rdreg 0x0B) State.reset)
      (fun t => statusWord t == 0x0910 && t.rsp == []) = true := by decide +kernel

/-- CTL-2, and FLT-7's neighbour: `NOP` is nothing also while faulted. -/
theorem test_nop :
    holdsAfter (exec .nop faulted) (fun t => statusWord t == 0x0212 && t.rsp == []) = true := by
  decide +kernel

/-- ENC-14, its `ENC_INIT`. -/
theorem test_encInit_restarts :
    holdsAfter (exec .encInit finished) (fun t => t.enc.out == [] && statusWord t == 0) = true := by
  decide +kernel

/-- ENC-3, ENC-6 and ENC-8: the interval after one symbol. -/
theorem test_encSym_interval :
    holdsAfter (exec (.encSym .built 0x41) s260) (fun t =>
      t.enc.low == 0 && t.enc.high == 0x9D89D87F && encBitsWord t.enc == 0x508 &&
      statusWord t == 0x09) = true ∧
    holdsAfter (exec (.encSym .built 1) s121) (fun t =>
      t.enc.pending == 1 && t.enc.low == 0 && t.enc.high == 0xFFFFFFFF && t.enc.out == []) = true ∧
    holdsAfter (exec (.encSym .built 0x42) s260) (fun t =>
      t.enc.low == 0x76276200 && t.enc.high == 0xF42F427F && encBitsWord t.enc == 0x722) = true := by
  decide +kernel

/-- The last command of BIT-4 and of BIT-5 (the pending bits are the complement), ENC-16, and, by R167, a
counter that fills in the second iteration and one that reaches its limit and completes. -/
theorem test_encSym_pending :
    holdsAfter (exec (.encSym .built 0) { s121 with enc := { s121.enc with pending := 3 } }) (fun t =>
      encBitsWord t.enc == 0x50E && t.enc.pending == 0) = true ∧
    holdsAfter (exec (.encSym .built 2) { s121 with enc := { s121.enc with pending := 3 } }) (fun t =>
      encBitsWord t.enc == 0x511 && t.enc.pending == 0) = true ∧
    holdsAfter (exec (.encSym .built 1) (atLimit s121)) (fun t =>
      t.faultCode == 0x08 && t.enc.low == 0 && t.enc.high == 0xFFFFFFFF) = true ∧
    holdsAfter (exec (.encSym .built 1) (s323 0xFFFFFFFE))
      (fun t => t.faultCode == 0x08 && t.enc.pending == 0xFFFFFFFE) = true ∧
    holdsAfter (exec (.encSym .built 1) (s323 0xFFFFFFFD))
      (fun t => !t.fault && t.enc.pending == 0xFFFFFFFF && t.enc.high == 0xFFFFFFFF) = true := by
  decide +kernel

/-- BIT-6, its `ENC_FIN`: the eighth bit completes 0x45 and the ninth is padded. -/
theorem test_encFin_pads :
    holdsAfter (exec .encFin { State.reset with enc :=
        { State.reset.enc with low := 0x76276200, high := 0xF42F427F, bitBuf := 0x22, bitCnt := 7 } })
      (fun t => t.enc.out == [0x45, 0x00] && t.enc.low == 0x76276200) = true := by decide +kernel

/-- ENC-5, ENC-12 and ENC-15. -/
theorem test_encFin_ends :
    holdsAfter (exec .encFin State.reset)
      (fun t => t.enc.out == [0x40] && statusWord t == 0x02) = true ∧
    holdsAfter (exec .encFin finished)
      (fun t => t.enc.out == [0x40] && statusWord t == 0x0212) = true ∧
    holdsAfter (exec .encFin (atLimit State.reset)) (fun t =>
      t.faultCode == 0x08 && t.enc.pending == 0xFFFFFFFF && t.enc.out == []) = true := by
  decide +kernel

/-- DEC-1. -/
theorem test_decInit :
    holdsAfter (exec .decInit { State.reset with inPort := [0x41, 0x42, 0x43, 0x44, 0x45] }) (fun t =>
      t.dec.code == 0x41424344 && t.dec.bitPos == 32 && t.dec.high == 0xFFFFFFFF &&
      statusWord t == 0x04) = true := by decide +kernel

/-- DEC-2, DEC-3 and the second symbol of DEC-4 (case 3 subtracts from `DEC_CODE`). -/
theorem test_decSym :
    holdsAfter (exec (.decSym .uniform)
        (decoding 0x41424344 [0x41, 0x42, 0x43, 0x44, 0x45] State.reset)) (fun t =>
      t.rsp == [0x41] && t.dec.code == 0x42434445 && t.dec.bitPos == 40) = true ∧
    holdsAfter (exec (.decSym .built) (decoding 0x42000000 [0x42] s260)) (fun t =>
      t.rsp == [0x41] && t.dec.low == 0 && t.dec.high == 0x9D89D87F &&
      t.dec.code == 0x40000000 && t.dec.bitPos == 37) = true ∧
    holdsAfter (exec (.decSym .built) (decoding 0x64000000 [0x64] s121)) (fun t =>
      t.rsp == [1] && t.dec.code == 0x48000000 && t.dec.bitPos == 33) = true := by
  decide +kernel

/-- DEC-10, DEC-11 and DEC-12. -/
theorem test_decSym_faults :
    holdsAfter (exec (.decSym .uniform) State.reset) (fun t => statusWord t == 0x0310) = true ∧
    holdsAfter (exec (.decSym .built) (decoding 0 [0] State.reset))
      (fun t => statusWord t == 0x0414 && t.dec.bitPos == 32) = true ∧
    holdsAfter (exec (.decSym .built) (decoding 0 [0] { s121 with maxTotal := 3 }))
      (fun t => statusWord t == 0x051C) = true := by decide +kernel

/-- LUT-1: `LUT_WFREQ` writes entry 0x41 and leaves entry 0x42. -/
theorem test_lutWfreq :
    holdsAfter (exec (.lutWfreq 0x41 5) State.reset) (fun t =>
      readFreq t.lut 0x41 == 5 && readFreq t.lut 0x42 == 0 && statusWord t == 0) = true := by
  decide +kernel

/-- The frequency T260 gives to 0x41. -/
theorem test_lutRfreq :
    holdsAfter (exec (.lutRfreq 0x41) s260) (fun t => t.rsp == [5]) = true := by decide +kernel

/-- T121 and T260 as the spec lists their sums. -/
theorem test_lutBuild :
    holdsAfter (exec .lutBuild { State.reset with lut := { s121.lut with valid := false } }) (fun t =>
      t.lut.cum[0] == 0 && t.lut.cum[1] == 1 && t.lut.cum[2] == 3 && t.lut.cum[3] == 4 &&
      t.lut.cum[256] == 4 && statusWord t == 0x08) = true ∧
    holdsAfter (exec .lutBuild { State.reset with lut := { s260.lut with valid := false } }) (fun t =>
      t.lut.cum[0x41] == 0x41 && t.lut.cum[0x42] == 0x46 && t.lut.cum[255] == 0x103 &&
      t.lut.cum[256] == 0x104) = true := by decide +kernel

/-- LUT-5 and LUT-6: the sum 2^32 - 1 fits, and one more overflows. -/
theorem test_lutBuild_overflow :
    holdsAfter (exec .lutBuild
        { State.reset with lut := writeFreq 0 0xFFFFFFFF State.reset.lut })
      (fun t => t.lut.cum[256] == 0xFFFFFFFF && statusWord t == 0x08) = true ∧
    holdsAfter (exec .lutBuild
        { State.reset with lut := writeFreq 255 1 (writeFreq 0 0xFFFFFFFF State.reset.lut) })
      (fun t => statusWord t == 0x0710) = true := by decide +kernel

/-- LUT-2. -/
theorem test_lutRd :
    holdsAfter (exec (.lutRd 0x42) s260) (fun t => t.rsp == [0x46]) = true ∧
    holdsAfter (exec (.lutRd 256) s260) (fun t => t.rsp == [0x104]) = true := by decide +kernel

/-- LUT-3 and LUT-4: the index is checked before the table. -/
theorem test_lutRd_faults :
    holdsAfter (exec (.lutRd 0) State.reset) (fun t => statusWord t == 0x0410) = true ∧
    holdsAfter (exec (.lutRd 257) State.reset) (fun t => statusWord t == 0x0910) = true := by
  decide +kernel

/-- R117: the uniform table. -/
theorem test_ucum : ucum[0] = 0 ∧ ucum[255] = 255 ∧ ucum[256] = 256 := by decide +kernel

/-! ## Steps -/

/-- FLT-1, its first word, through a step: `STATUS = 0x0110`. -/
theorem test_step_illegal :
    holdsAfter (step (issues 0x0B State.reset)) (fun t =>
      statusWord t == 0x0110 && t.pending == []) = true := by decide +kernel

/-- PRG-4 while faulted: `lut.rfreq 0` is discarded, `rdreg STATUS` responds 0x212. -/
theorem test_step_faulted :
    holdsAfter (step (issues 0x07 faulted)) (fun t => t.rsp == []) = true ∧
    holdsAfter (step (issues 0x0A faulted)) (fun t => t.rsp == [0x212]) = true := by decide +kernel

/-- FLT-6: reset clears the fault. -/
theorem test_step_reset :
    holdsAfter (step { faulted with pending := [.reset none] }) (fun t =>
      statusWord t == 0 && t.enc.out == [] && t.maxTotal == 0x10000) = true := by decide +kernel

/-- The command the host places next is the one a step runs: `ENC_SYM M=0` of BIT-1. -/
theorem test_withFetchWord :
    holdsAfter (step (State.reset.withFetchWord 64 0x4102)) (fun t =>
      t.enc.out == [0x41] && statusWord t == 0x01) = true := by decide +kernel

/-! ## Witnesses: states and operands that meet the hypotheses of the obligations -/

/-- T121 is a table that starts at 0 and does not fall. -/
theorem cum121_inv : Table.Inv cum121 :=
  ⟨by decide +kernel, by decide +kernel⟩

/-- The state after "load T121" is legal. -/
theorem s121_inv : s121.Inv where
  enc := ⟨by decide, by unfold Wide; decide, by decide, by decide, by decide⟩
  dec := ⟨by decide, by decide, by intro h; cases h⟩
  lut := fun _ => cum121_inv
  noFault := by decide
  someFault := by decide
  maxTotal := by decide

/-- A decoder session under T121 is legal. -/
theorem decoding_inv : (decoding 0x64000000 [0x64] s121).Inv where
  enc := s121_inv.enc
  dec := ⟨by decide, by decide, by intro _; unfold Wide; decide⟩
  lut := fun _ => cum121_inv
  noFault := by decide
  someFault := by decide
  maxTotal := by decide

/-- The built table T121 and the uniform one may be used. -/
theorem s121_usable : Usable s121 .built ∧ Usable s121 .uniform := by
  refine ⟨⟨fun _ => rfl, ?_, ?_⟩, ⟨fun h => (by cases h), ?_, ?_⟩⟩ <;> decide +kernel

/-- A word of each format. -/
theorem witness_OperandsAreTheFields :
    decode 0x0000000000000008 = .command .lutBuild ∧
    decode 0x0000000000018102 = .command (.encSym .built 0x81) ∧
    decode 0x0000000000010005 = .command (.decSym .built) ∧
    decode 0x800000010000FF06 = .command (.lutWfreq 0xFF 0x80000001) ∧
    decode 0x000000000000FF0A = .command (.rdreg 0xFF) ∧
    decode 0x000000000001FF09 = .command (.lutRd 511) := by decide

theorem witness_EncodeOfDecode : decode 0x0000000000014102 = .command (.encSym .built 0x41) := by
  decide

/-- One word for each line of the reserved bits, and the two opcodes at the edge. -/
theorem witness_IllegalExactlyReserved :
    decode 0x8000000000000008 = .illegal .reservedBit ∧
    decode 0x0000000000020002 = .illegal .reservedBit ∧
    decode 0x0000000000020009 = .illegal .reservedBit ∧
    decode 0x0000000000018005 = .illegal .reservedBit ∧
    decode 0x0000000000020005 = .illegal .reservedBit ∧
    decode 0x0000000080000006 = .illegal .reservedBit ∧
    decode 0x0000000000010007 = .illegal .reservedBit ∧
    decode 0x000000000001000A = .illegal .reservedBit ∧
    decode 0x000000000000000A = .command (.rdreg 0) ∧
    decode 0x000000000000000B = .illegal .reservedOpcode := by decide

/-- Each operand at the end of its range of R89, and one past it; a register name. -/
theorem witness_AssemblerChecksOperands :
    (AsmLine.encSym .built 255).assemble = some 0x000000000001FF02 ∧
    (AsmLine.encSym .built 256).assemble = none ∧
    (AsmLine.lutWfreq 255 0xFFFFFFFF).assemble = some 0xFFFFFFFF0000FF06 ∧
    (AsmLine.lutWfreq 256 0).assemble = none ∧ (AsmLine.lutWfreq 0 0x100000000).assemble = none ∧
    (AsmLine.lutRfreq 255).assemble = some 0x000000000000FF07 ∧
    (AsmLine.lutRfreq 256).assemble = none ∧
    (AsmLine.lutRd 511).assemble = some 0x000000000001FF09 ∧ (AsmLine.lutRd 512).assemble = none ∧
    (AsmLine.rdreg (.number 255)).assemble = some 0x000000000000FF0A ∧
    (AsmLine.rdreg (.number 256)).assemble = none ∧
    (AsmLine.rdreg (.name .decCode)).assemble = some 0x000000000000090A := by decide

theorem witness_StepExecutesIssuedCommand :
    (issues 0x4102 s121).pending = .command 0x4102 [0x80] :: [] ∧
    decode 0x4102 = .command (.encSym .uniform 0x41) := by decide

theorem witness_StepFaultsIllegalWord :
    (issues 0x0B s121).pending = .command 0x0B [0x80] :: [] ∧
    decode 0x0B = .illegal .reservedOpcode ∧ (issues 0x0B s121).fault = false := by decide

theorem witness_ResetEventFromEveryState :
    ({ faulted with pending := [.reset (some 0)] } : State).pending = .reset (some 0) :: [] := rfl

theorem witness_IdleHoldsState : faulted.pending = [] := rfl

theorem witness_FaultEntryIsPrecise :
    finished.fault = false ∧ ∃ t, exec .encFin finished = .next t ∧ t.fault = true :=
  ⟨rfl, next_of (by decide +kernel)⟩

/-- The last readable register, the first number that is none, and a word that is no `RDREG`. -/
theorem witness_FaultedCoreDiscardsWords :
    (issues 0x0A0A faulted).fault = true ∧
    (issues 0x0A0A faulted).pending = .command 0x0A0A [0x80] :: [] ∧
    decode 0x0A0A = .command (.rdreg 0x0A) ∧ (0x0A : Byte).toNat ≤ 0x0A ∧
    decode 0x0B0A = .command (.rdreg 0x0B) ∧ 0x0A < (0x0B : Byte).toNat ∧
    decode 0x01 = .command .encInit := by decide

/-- Both ways a step goes on: a reset, and a discarded word. -/
theorem witness_OnlyResetLeavesFault :
    faulted.fault = true ∧
    (∃ t, step { faulted with pending := [.reset none] } = .next t ∧ (t.fault == false) = true) ∧
    ∃ t, step (issues 0x01 faulted) = .next t ∧ t.fault = true :=
  ⟨rfl, next_of (by decide +kernel), next_of (by decide +kernel)⟩

theorem witness_MaxTotalIsConstant :
    ∃ t, step { faulted with pending := [.reset none] } = .next t ∧
      (t.maxTotal == 0x10000) = true :=
  next_of (by decide +kernel)

/-- The two ends of the legal range. -/
theorem witness_ResetStateIsLegal :
    Config.leastMaxTotal ≤ (0x100 : Word).toNat ∧ (0x100 : Word).toNat ≤ Config.greatestMaxTotal ∧
    Config.leastMaxTotal ≤ (0x40000000 : Word).toNat ∧
    (0x40000000 : Word).toNat ≤ Config.greatestMaxTotal := by decide

/-- A legal state that a step changes. -/
theorem witness_StepKeepsStateLegal :
    s121.Inv ∧ ∃ t, step s121 = .next t ∧ (!t.fault) = true :=
  ⟨s121_inv, next_of (by decide +kernel)⟩

theorem witness_LegalStateNeverStops : s121.Inv := s121_inv

/-- Each command goes on without a fault somewhere. -/
theorem witness_CommandsChangeOnlyTheirUnit :
    (∃ t, exec .nop s121 = .next t ∧ (!t.fault) = true) ∧
    (∃ t, exec .encInit s121 = .next t ∧ (!t.fault) = true) ∧
    (∃ t, exec (.encSym .built 1) s121 = .next t ∧ (!t.fault) = true) ∧
    (∃ t, exec .encFin s121 = .next t ∧ (!t.fault) = true) ∧
    (∃ t, exec .decInit s121 = .next t ∧ (!t.fault) = true) ∧
    (∃ t, exec (.decSym .built) (decoding 0 [] s121) = .next t ∧ (!t.fault) = true) ∧
    (∃ t, exec (.lutWfreq 255 1) s121 = .next t ∧ (!t.fault) = true) ∧
    (∃ t, exec (.lutRfreq 255) s121 = .next t ∧ (!t.fault) = true) ∧
    (∃ t, exec .lutBuild s121 = .next t ∧ (!t.fault) = true) ∧
    (∃ t, exec (.lutRd 256) s121 = .next t ∧ (!t.fault) = true) ∧
    ∃ t, exec (.rdreg 0x0A) s121 = .next t ∧ (!t.fault) = true := by
  refine ⟨?_, ?_, ?_, ?_, ?_, ?_, ?_, ?_, ?_, ?_, ?_⟩ <;> exact next_of (by decide +kernel)

/-- Both cases: `ENC_INIT` empties `OUT`, and a symbol that adds a byte. -/
theorem witness_OutIsAppendOnly :
    (∃ t, exec .encInit finished = .next t ∧ (t.enc.out == []) = true) ∧
    ∃ t, exec (.encSym .uniform 0x41) s121 = .next t ∧ (t.enc.out == [0x41]) = true :=
  ⟨next_of (by decide +kernel), next_of (by decide +kernel)⟩

/-- Each case: a response, a fault instead of one, a number that is no register, no response. -/
theorem witness_ResponsesAreOnePerCommand :
    (∃ t, exec (.decSym .built) (decoding 0 [] s121) = .next t ∧ (t.rsp.length == 1) = true) ∧
    (∃ t, exec (.lutRd 0) State.reset = .next t ∧ (t.fault && t.rsp == []) = true) ∧
    (∃ t, exec (.rdreg 0x0A) faulted = .next t ∧ (t.rsp.length == 1) = true) ∧
    (∃ t, exec (.rdreg 0x0B) faulted = .next t ∧ (t.rsp == []) = true) ∧
    ∃ t, exec .encFin s121 = .next t ∧ (t.rsp == []) = true := by
  refine ⟨?_, ?_, ?_, ?_, ?_⟩ <;> exact next_of (by decide +kernel)

/-- Each of the three reads twice. -/
theorem witness_RepeatedReadGivesSameWord :
    (∃ t, exec (.rdreg 0) s121 = .next t ∧
      (t.rsp == [0x08] && holdsAfter (exec (.rdreg 0) t) (·.rsp == [0x08, 0x08])) = true) ∧
    (∃ t, exec (.lutRd 1) s121 = .next t ∧
      (t.rsp == [1] && holdsAfter (exec (.lutRd 1) t) (·.rsp == [1, 1])) = true) ∧
    ∃ t, exec (.lutRfreq 1) s121 = .next t ∧
      (t.rsp == [2] && holdsAfter (exec (.lutRfreq 1) t) (·.rsp == [2, 2])) = true := by
  refine ⟨?_, ?_, ?_⟩ <;> exact next_of (by decide +kernel)

/-- An unbuilt table with other entries. -/
theorem witness_UnbuiltTableIsNeverRead :
    ({ State.reset with lut := { State.reset.lut with cum := cum121 } } : State).lut.valid = false :=
  rfl

theorem witness_NopChangesNothing :
    ((0x100 : CmdWord).extractLsb' 0 8 = 0x00 ∧ (0x100 : CmdWord) ≠ 0) := by decide

/-- The first and the last register; the first and the last number that is none, without and with a
fault recorded. -/
theorem witness_RdregRespondsWithRegisterMap :
    (0x00 : Byte).toNat ≤ 0x0A ∧ (0x0A : Byte).toNat ≤ 0x0A ∧ 0x0A < (0x0B : Byte).toNat ∧
    0x0A < (0xFF : Byte).toNat ∧ s121.fault = false ∧ faulted.fault = true := by decide

theorem witness_WfreqWritesOneEntry : s121.fault = false ∧ (0 : Byte) ≠ 255 := by decide

/-- The entry written, and another. -/
theorem witness_RfreqRespondsWithEntry :
    s121.fault = false ∧ (∃ t, exec (.lutWfreq 255 9) s121 = .next t ∧
      (readFreq t.lut 255 == 9 && readFreq t.lut 1 == 2) = true) :=
  ⟨rfl, next_of (by decide +kernel)⟩

/-- Both cases: the largest sum that fits, and one more. -/
theorem witness_BuildGivesPrefixSums :
    s121.fault = false ∧
    ((writeFreq 0 0xFFFFFFFF State.reset.lut).freq.toList.map BitVec.toNat).sum = 0xFFFFFFFF ∧
    ((writeFreq 255 1 (writeFreq 0 0xFFFFFFFF State.reset.lut)).freq.toList.map BitVec.toNat).sum
      = 0x100000000 := by decide +kernel

/-- A built table; the last index with and without a table, and the first index past it. -/
theorem witness_LutRdRespondsOrFaults :
    s121.Inv ∧ s121.fault = false ∧ (256 : BitVec 9).toNat < 257 ∧ s121.lut.valid = true ∧
    State.reset.lut.valid = false ∧ 257 ≤ (257 : BitVec 9).toNat :=
  ⟨s121_inv, by decide⟩

theorem witness_LutLoadBuildsItsTable :
    s121.fault = false ∧ (freq121.toList.map BitVec.toNat).sum ≤ 0xFFFFFFFF := by decide +kernel

/-- The largest value below the total of T121. -/
theorem witness_FindSymbolIsTheInverse : Table.Inv cum121 ∧ 3 < tableTotal cum121 :=
  ⟨cum121_inv, by decide +kernel⟩

theorem witness_SinkCorrespondence : State.reset.enc.out = [] ∧ State.reset.enc.bitCnt = 0 := by
  decide

theorem witness_DecInitReadsFirstBits : (decoding 0 [] s121).fault = false := rfl

theorem witness_EncInitStartsFresh : finished.fault = false := rfl

theorem witness_EncSymCompletes :
    s121.Inv ∧ s121.fault = false ∧ s121.enc.phase ≠ .finished ∧ Usable s121 .built ∧
    cumLow (selectedTable s121 .built) 1 < cumNext (selectedTable s121 .built) 1 ∧
    s121.enc.pending.toNat + 32 ≤ 0xFFFFFFFF :=
  ⟨s121_inv, rfl, by decide, s121_usable.1, by decide +kernel, by decide⟩

/-- Each of those encoders is legal; but for the count and the table its state is that of T121. -/
theorem s323_inv (pending : Word) : (s323 pending).Inv where
  enc := ⟨s121_inv.enc.ordered, fun _ => s121_inv.enc.wide (by decide), s121_inv.enc.held,
    (nomatch ·), (nomatch ·)⟩
  dec := s121_inv.dec
  lut := fun _ => (⟨by decide +kernel, by decide +kernel⟩ : Table.Inv cum323)
  noFault := s121_inv.noFault
  someFault := s121_inv.someFault
  maxTotal := s121_inv.maxTotal

theorem s323_usable (pending : Word) : Usable (s323 pending) .built :=
  ⟨fun _ => rfl, (by decide +kernel : 1 ≤ tableTotal cum323),
    (by decide +kernel : tableTotal cum323 ≤ 65536)⟩

/-- The premises, at every pending count, and the bounds `Narrow` gives symbol 1; then the three kinds of
count: at the limit (`j = 0`), one below it (`j = 1`), and two below it, which two iterations reach but
do not pass. -/
theorem witness_EncSymOverflowsAtTheLimit :
    (∀ p, (s323 p).Inv ∧ (s323 p).fault = false ∧ (s323 p).enc.phase ≠ .finished ∧
      Usable (s323 p) .built) ∧
    (cumLow cum323 1 = 3 ∧ cumNext cum323 1 = 5 ∧ tableTotal cum323 = 8) ∧
    (let low := 0 + 2 ^ 32 * 3 / 8
     let high := 0 + 2 ^ 32 * 5 / 8 - 1
     (0xFFFFFFFF + 0 = 0xFFFFFFFF ∧ ∀ i ≤ 0, InMiddle (middleSteps low high i)) ∧
     (0xFFFFFFFE + 1 = 0xFFFFFFFF ∧ ∀ i ≤ 1, InMiddle (middleSteps low high i)) ∧
     ¬ ∃ j, 0xFFFFFFFD + j = 0xFFFFFFFF ∧ ∀ i ≤ j, InMiddle (middleSteps low high i)) := by
  refine ⟨fun p => ⟨s323_inv p, rfl, (nomatch ·), s323_usable p⟩, by decide +kernel,
    by decide, by decide, ?_⟩
  rintro ⟨j, hj, h⟩
  exact absurd (h 2 (by omega)) (by decide)

/-- LUT-8: a table built from frequencies that are all 0. -/
def emptyTable : State := { State.reset with lut := { State.reset.lut with valid := true } }

/-- Each case: finished, no table, the total 0 and the total one above `MAX_TOTAL`, a symbol of
frequency 0 of a usable table. -/
theorem witness_EncSymFaultsInOrder :
    (finished.fault = false ∧ finished.enc.phase = .finished) ∧
    (State.reset.enc.phase ≠ .finished ∧ State.reset.lut.valid = false) ∧
    (emptyTable.enc.phase ≠ .finished ∧ emptyTable.lut.valid = true ∧
      tableTotal (selectedTable emptyTable .built) = 0) ∧
    (let s := { s121 with maxTotal := 3 }
     s.enc.phase ≠ .finished ∧ s.lut.valid = true ∧
       s.maxTotal.toNat + 1 = tableTotal (selectedTable s .built)) ∧
    cumNext (selectedTable s121 .built) 3 = cumLow (selectedTable s121 .built) 3 ∧
    tableTotal (selectedTable s121 .built) = 4 := by decide +kernel

theorem witness_EncSymIsExact :
    s121.Inv ∧ s121.fault = false ∧
    ∃ t, exec (.encSym .built 1) s121 = .next t ∧ (!t.fault) = true :=
  ⟨s121_inv, rfl, next_of (by decide +kernel)⟩

theorem witness_UniformSymbolPutsItsByte :
    s121.fault = false ∧ s121.enc.phase ≠ .finished ∧ 256 ≤ s121.maxTotal.toNat ∧
    s121.enc.low = 0 ∧ s121.enc.high = 0xFFFFFFFF ∧ s121.enc.pending = 0 := by decide

/-- The largest counter that `ENC_FIN` accepts. -/
theorem witness_EncFinCompletesStream :
    s121.fault = false ∧ s121.enc.phase ≠ .finished ∧ (0xFFFFFFFE : Word).toNat < 0xFFFFFFFF := by
  decide

/-- Both cases. -/
theorem witness_EncFinFaultsInOrder :
    finished.enc.phase = .finished ∧ (atLimit s121).enc.phase ≠ .finished ∧
    (atLimit s121).enc.pending.toNat = 0xFFFFFFFF ∧ (atLimit s121).fault = false := by decide

theorem witness_DecSymCompletes :
    (decoding 0x64000000 [0x64] s121).Inv ∧ (decoding 0x64000000 [0x64] s121).fault = false ∧
    (decoding 0x64000000 [0x64] s121).dec.active = true ∧
    Usable (decoding 0x64000000 [0x64] s121) .built :=
  ⟨decoding_inv, rfl, rfl, s121_usable.1⟩

/-- Each case: no session, no table, the total 0 and the total one above `MAX_TOTAL`. -/
theorem witness_DecSymFaultsInOrder :
    (s121.fault = false ∧ s121.dec.active = false) ∧
    ((decoding 0 [] State.reset).dec.active = true ∧
      (decoding 0 [] State.reset).lut.valid = false) ∧
    ((decoding 0 [] emptyTable).dec.active = true ∧ (decoding 0 [] emptyTable).lut.valid = true ∧
      tableTotal (selectedTable (decoding 0 [] emptyTable) .built) = 0) ∧
    (let s := decoding 0 [] { s121 with maxTotal := 3 }
     s.dec.active = true ∧ s.lut.valid = true ∧
       s.maxTotal.toNat + 1 = tableTotal (selectedTable s .built)) := by decide +kernel

theorem witness_UniformSymbolReadsItsByte :
    (decoding 0xFF000000 [0xFF] s121).fault = false ∧
    (decoding 0xFF000000 [0xFF] s121).dec.active = true ∧
    256 ≤ (decoding 0xFF000000 [0xFF] s121).maxTotal.toNat ∧
    (decoding 0xFF000000 [0xFF] s121).dec.low = 0 ∧
    (decoding 0xFF000000 [0xFF] s121).dec.high = 0xFFFFFFFF := by decide

/-- The first symbol of PRG-1 and its decode. -/
theorem witness_LockStepOfOneSymbol :
    s121.Inv ∧ s121.fault = false ∧
    (∃ t, exec (.encSym .built 1) s121 = .next t ∧ (!t.fault) = true) ∧
    (decoding 0x64000000 [0x64] s121).Inv ∧ (decoding 0x64000000 [0x64] s121).fault = false ∧
    (decoding 0x64000000 [0x64] s121).lut = s121.lut ∧
    (decoding 0x64000000 [0x64] s121).maxTotal = s121.maxTotal ∧
    (decoding 0x64000000 [0x64] s121).dec.low = s121.enc.low ∧
    (decoding 0x64000000 [0x64] s121).dec.high = s121.enc.high ∧
    ∃ t, exec (.decSym .built) (decoding 0x64000000 [0x64] s121) = .next t ∧
      (t.rsp == s121.rsp ++ [(1 : Byte).setWidth 32]) = true :=
  ⟨s121_inv, rfl, next_of (by decide +kernel), decoding_inv, rfl, rfl, rfl, rfl, rfl,
    next_of (by decide +kernel)⟩

/-- One symbol and `ENC_FIN`. -/
theorem witness_SessionRoundTrip :
    s121.Inv ∧ s121.fault = false ∧ s121.enc.phase = .fresh ∧
    ∃ t, runCommands ([(TableSel.built, (1 : Byte))].map (fun p => .encSym p.1 p.2) ++ [.encFin]) s121
      = .next t ∧ (!t.fault) = true :=
  ⟨s121_inv, rfl, rfl, next_of (by decide +kernel)⟩

/-- One byte of data, total 257, on instances with the default `MAX_TOTAL`. -/
theorem witness_ProtocolRoundTrip :
    s121.Inv ∧ s121.fault = false ∧ 256 + ([0x41] : List Byte).length ≤ s121.maxTotal.toNat ∧
    ([0x41] : List Byte).length < 2 ^ 27 :=
  ⟨s121_inv, rfl, by decide, by decide⟩

end Sys2Proof.Tests
end

section
/-! The state after reset (10_state.md, R36). -/

namespace Sys2Proof.Machine

/-- R36: every entry of `FREQ` is 0 after reset. -/
@[simp] theorem readFreq_lutReset (i : Byte) : readFreq Lut.reset i = 0 :=
  Vector.getElem_replicate i.isLt

/-- Settles O9: `State.resetWith` writes the reset value of each register and stream, and no entry of
its `FREQ` differs from 0. -/
theorem resetStateValues : Obligations.ResetStateValues := by
  intro maxTotal s
  have hlut : s.lut = Lut.reset := rfl
  have hfreq (i : Byte) : readFreq s.lut i = 0 := by rw [hlut, readFreq_lutReset]
  exact ⟨rfl, rfl, rfl, rfl, rfl, rfl, rfl,
    rfl, rfl, rfl, rfl, rfl, rfl,
    hfreq, rfl, rfl, rfl, rfl⟩

end Sys2Proof.Machine
end

section
/-! The command words of the table commands as the concatenations of their fields (R82, R83, R86). -/

namespace Sys2Proof

/-! ### Concatenated fields -/

/-- Two fields side by side, each standing at its own lowest bit. -/
theorem fieldAt_append {n m : Nat} (lo : Nat) (x : BitVec n) (y : BitVec m) :
    fieldAt lo (x ++ y) = fieldAt (lo + m) x ||| fieldAt lo y := by
  ext i hi
  simp only [BitVec.getElem_or, fieldAt_getElem, BitVec.getLsbD_append, ← Nat.sub_sub]
  by_cases hlo : lo ≤ i
  · by_cases hm : i - lo < m
    · simp [hlo, hm, show ¬ lo + m ≤ i by omega]
    · simp [hlo, hm, show lo + m ≤ i by omega, BitVec.getLsbD_of_ge y (i - lo) (by omega)]
  · simp [hlo, show ¬ lo + m ≤ i by omega]

@[simp] theorem fieldAt_zero {n : Nat} (lo : Nat) : fieldAt lo (0#n) = 0#64 := by
  simp [fieldAt]

theorem fieldAt_word (w : CmdWord) : fieldAt 0 w = w := by
  simp [fieldAt]

/-- Format W (R82): `VAL`, 16 reserved bits, `SYM`, opcode. -/
theorem append_eq_formatW (val : Word) (sym op : Byte) :
    val ++ (0 : BitVec 16) ++ sym ++ op = formatW val sym op := by
  calc
    val ++ 0#16 ++ sym ++ op = fieldAt 0 (val ++ 0#16 ++ sym ++ op) := (fieldAt_word _).symm
    _ = formatW val sym op := by
      simp only [fieldAt_append, fieldAt_zero, BitVec.or_zero, formatW]

/-- Format X (R82): 48 reserved bits, `SYM` or `REG`, opcode. -/
theorem append_eq_formatX (index op : Byte) :
    (0 : BitVec 48) ++ index ++ op = formatX index op := by
  calc
    0#48 ++ index ++ op = fieldAt 0 (0#48 ++ index ++ op) := (fieldAt_word _).symm
    _ = formatX index op := by
      simp only [fieldAt_append, fieldAt_zero, BitVec.zero_or, formatX]

/-- Format I (R82): 47 reserved bits, `IDX`, opcode. -/
theorem append_eq_formatI (idx : BitVec 9) (op : Byte) :
    (0 : BitVec 47) ++ idx ++ op = formatI idx op := by
  calc
    0#47 ++ idx ++ op = fieldAt 0 (0#47 ++ idx ++ op) := (fieldAt_word _).symm
    _ = formatI idx op := by
      simp only [fieldAt_append, fieldAt_zero, BitVec.zero_or, formatI]

/-! ### The fields of a format's word (R83) -/

/-- A field read back at its own place. -/
theorem extractLsb'_fieldAt {n : Nat} (lo : Nat) (x : BitVec n) (h : lo + n ≤ 64) :
    (fieldAt lo x).extractLsb' lo n = x := by
  ext i hi
  rw [BitVec.getElem_extractLsb', getLsbD_fieldAt lo x (lo + i) (by omega)]
  simp [BitVec.getLsbD_eq_getElem hi]

/-- A field read above another one's bits. -/
theorem extractLsb'_fieldAt_above {n : Nat} (lo : Nat) (x : BitVec n) (lo' k : Nat)
    (h : lo + n ≤ lo') (hk : lo' + k ≤ 64) : (fieldAt lo x).extractLsb' lo' k = 0#k := by
  ext i hi
  rw [BitVec.getElem_extractLsb', getLsbD_fieldAt lo x (lo' + i) (by omega)]
  simp [BitVec.getLsbD_of_ge x (lo' + i - lo) (by omega)]

/-- A field read below another one's bits. -/
theorem extractLsb'_fieldAt_below {n : Nat} (lo : Nat) (x : BitVec n) (lo' k : Nat)
    (h : lo' + k ≤ lo) (hk : lo' + k ≤ 64) : (fieldAt lo x).extractLsb' lo' k = 0#k := by
  ext i hi
  rw [BitVec.getElem_extractLsb', getLsbD_fieldAt lo x (lo' + i) (by omega)]
  simp [show ¬ lo ≤ lo' + i by omega]

theorem symField_formatX (index op : Byte) : symField (formatX index op) = index := by
  rw [symField, formatX, BitVec.extractLsb'_or, extractLsb'_fieldAt 8 index (by decide),
    extractLsb'_fieldAt_above 0 op 8 8 (by decide) (by decide), BitVec.or_zero]

theorem symField_formatW (val : Word) (sym op : Byte) : symField (formatW val sym op) = sym := by
  rw [symField, formatW, BitVec.extractLsb'_or, BitVec.extractLsb'_or,
    extractLsb'_fieldAt_below 32 val 8 8 (by decide) (by decide),
    extractLsb'_fieldAt 8 sym (by decide),
    extractLsb'_fieldAt_above 0 op 8 8 (by decide) (by decide), BitVec.zero_or, BitVec.or_zero]

theorem valField_formatW (val : Word) (sym op : Byte) : valField (formatW val sym op) = val := by
  rw [valField, formatW, BitVec.extractLsb'_or, BitVec.extractLsb'_or,
    extractLsb'_fieldAt 32 val (by decide),
    extractLsb'_fieldAt_above 8 sym 32 32 (by decide) (by decide),
    extractLsb'_fieldAt_above 0 op 32 32 (by decide) (by decide), BitVec.or_zero, BitVec.or_zero]

theorem idxField_formatI (idx : BitVec 9) (op : Byte) : idxField (formatI idx op) = idx := by
  rw [idxField, formatI, BitVec.extractLsb'_or, extractLsb'_fieldAt 8 idx (by decide),
    extractLsb'_fieldAt_above 0 op 8 9 (by decide) (by decide), BitVec.or_zero]

/-! ### Decoding (R86) -/

/-- A word of a row of R85 decodes to the command its fields name. -/
theorem decode_of_rowWord {i : Instr} (h : Laws.RowWord.Statement i) :
    decode (encode i) = .command (i.mnemonic.command (encode i)) := by
  obtain ⟨hop, hmask⟩ := h
  simp only [decode, hop, hmask, if_true]

theorem decode_lutWfreq_word (sym : Byte) (val : Word) :
    decode (val ++ (0 : BitVec 16) ++ sym ++ (0x06 : BitVec 8)) = .command (.lutWfreq sym val) := by
  rw [append_eq_formatW]
  refine (decode_of_rowWord (Laws.RowWord.lutWfreq sym val)).trans ?_
  simp only [encode, Instr.mnemonic, Mnemonic.command, symField_formatW, valField_formatW]

theorem decode_lutRfreq_word (sym : Byte) :
    decode ((0 : BitVec 48) ++ sym ++ (0x07 : BitVec 8)) = .command (.lutRfreq sym) := by
  rw [append_eq_formatX]
  refine (decode_of_rowWord (Laws.RowWord.lutRfreq sym)).trans ?_
  simp only [encode, Instr.mnemonic, Mnemonic.command, symField_formatX]

theorem decode_lutBuild_word : decode 0x0000000000000008 = .command .lutBuild :=
  decode_of_rowWord Laws.RowWord.lutBuild

theorem decode_lutRd_word (idx : BitVec 9) :
    decode ((0 : BitVec 47) ++ idx ++ (0x09 : BitVec 8)) = .command (.lutRd idx) := by
  rw [append_eq_formatI]
  refine (decode_of_rowWord (Laws.RowWord.lutRd idx)).trans ?_
  simp only [encode, Instr.mnemonic, Mnemonic.command, idxField_formatI]

end Sys2Proof
end

section
/-! The table commands (40_frequency_lut.md): the sums of `LUT_BUILD` (R112), and what each command
answers with no fault recorded (R110, R111, R112, R114). -/

namespace Sys2Proof.Machine

/-! ### The sums of `LUT_BUILD` (R112) -/

/-- The sum before entry `i` of `FREQ`. -/
theorem buildSums_getElem (freq : Vector Word 256) (i : Nat) (h : i < (buildSums freq).length) :
    (buildSums freq)[i] = ((freq.toList.take i).map BitVec.toNat).sum :=
  (partialSums_getElem 0 freq.toList i h).trans (Nat.zero_add _)

/-- The last sum is the total of the frequencies. -/
theorem buildSums_last (freq : Vector Word 256) :
    (buildSums freq)[256]'(by simp) = (freq.toList.map BitVec.toNat).sum := by
  rw [buildSums_getElem, List.take_of_length_le (by simp)]

/-- No sum exceeds the total of the frequencies. -/
theorem buildSums_le_total (freq : Vector Word 256) (i : Nat) (h : i < (buildSums freq).length) :
    (buildSums freq)[i] ≤ (freq.toList.map BitVec.toNat).sum := by
  rw [buildSums_getElem]
  exact ((List.take_sublist i _).map _).sum_le_sum (by simp)

/-- Every sum fits an entry exactly when the total does. -/
theorem buildSums_fit_iff (freq : Vector Word 256) :
    (buildSums freq).all (· ≤ top) = true ↔ (freq.toList.map BitVec.toNat).sum ≤ top := by
  simp only [List.all_eq_true, decide_eq_true_eq]
  constructor
  · intro h
    rw [← buildSums_last]
    exact h _ (List.getElem_mem _)
  · intro h t ht
    obtain ⟨i, hi, rfl⟩ := List.getElem_of_mem ht
    exact (buildSums_le_total freq i hi).trans h

/-- Each entry of the built table is the one before it and one more frequency. -/
theorem buildTable_succ {freq : Vector Word 256} (h : (buildSums freq).all (· ≤ top) = true)
    (i : Nat) (hi : i < 256) :
    (buildTable freq)[i + 1].toNat = (buildTable freq)[i].toNat + freq[i].toNat := by
  rw [buildTable_getElem h, buildTable_getElem h, buildSums_succ freq i hi]

/-- The last entry of the built table is the total of the frequencies. -/
theorem buildTable_last {freq : Vector Word 256} (h : (buildSums freq).all (· ≤ top) = true) :
    (buildTable freq)[256].toNat = (freq.toList.map BitVec.toNat).sum := by
  rw [buildTable_getElem h, buildSums_last]

/-! ### What each command answers with no fault recorded -/

/-- R110: one entry of `FREQ` is written. -/
theorem exec_lutWfreq {s : State} (h : s.fault = false) (sym : Byte) (val : Word) :
    exec (.lutWfreq sym val) s = .next { s with lut := writeFreq sym val s.lut } :=
  command_ok h _

/-- R111: one entry of `FREQ` is the response. -/
theorem exec_lutRfreq {s : State} (h : s.fault = false) (sym : Byte) :
    exec (.lutRfreq sym) s = .next (respond (readFreq s.lut sym) s) :=
  command_ok h _

/-- R112: the new table, where the total of the frequencies fits. -/
theorem exec_lutBuild_of_fit {s : State} (h : s.fault = false)
    (hsum : (buildSums s.lut.freq).all (· ≤ top) = true) :
    exec .lutBuild s =
      .next { s with lut := { s.lut with cum := buildTable s.lut.freq, valid := true } } := by
  rw [exec, execLutBuild, lutBuildRule_cases, if_pos hsum, command_ok h]

/-- R112: `LUT_OVERFLOW` otherwise. -/
theorem exec_lutBuild_of_overflow {s : State} (h : s.fault = false)
    (hsum : ¬ (buildSums s.lut.freq).all (· ≤ top) = true) :
    exec .lutBuild s = .next (takeFault .lutOverflow s) := by
  rw [exec, execLutBuild, lutBuildRule_cases, if_neg hsum, command_raise h]

/-- R114: the entry of a built table. -/
theorem exec_lutRd_of_valid {s : State} (h : s.fault = false) {idx : BitVec 9}
    (hidx : idx.toNat < 257) (hvalid : s.lut.valid = true) :
    exec (.lutRd idx) s = .next (respond s.lut.cum[idx.toNat] s) := by
  rw [exec, execLutRd, lutRdRule_cases, dif_pos hidx, if_pos hvalid, command_ok h]

/-- R114: `LUT_NOT_VALID` before the first build. -/
theorem exec_lutRd_of_not_valid {s : State} (h : s.fault = false) {idx : BitVec 9}
    (hidx : idx.toNat < 257) (hvalid : s.lut.valid = false) :
    exec (.lutRd idx) s = .next (takeFault .lutNotValid s) := by
  rw [exec, execLutRd, lutRdRule_cases, dif_pos hidx, if_neg (by simp [hvalid]), command_raise h]

/-- R114: `BAD_INDEX` past the last entry, whether a table is built or not. -/
theorem exec_lutRd_of_bad_index {s : State} (h : s.fault = false) {idx : BitVec 9}
    (hidx : ¬ idx.toNat < 257) : exec (.lutRd idx) s = .next (takeFault .badIndex s) := by
  rw [exec, execLutRd, lutRdRule_cases, dif_neg hidx, command_raise h]

/-- Read after write of the staging array, at any index (R28, R51). -/
theorem readFreq_writeFreq (i j : Byte) (v : Word) (l : Lut) :
    readFreq (writeFreq i v l) j = if j = i then v else readFreq l j := by
  split
  case isTrue h => rw [h, readFreq_writeFreq_same]
  case isFalse h => exact readFreq_writeFreq_other h v l

/-! ### The obligations -/

/-- Settles O28: the total decides between the built table, whose entries are the sums, and
`LUT_OVERFLOW`. -/
theorem buildGivesPrefixSums : Obligations.BuildGivesPrefixSums := by
  refine ⟨decode_lutBuild_word, fun s hf => ?_⟩
  split
  case isTrue hsum =>
    have hfit := (buildSums_fit_iff s.lut.freq).mpr hsum
    exact ⟨_, exec_lutBuild_of_fit hf hfit, rfl, (buildTable_inv hfit).first, buildTable_succ hfit,
      buildTable_last hfit, rfl⟩
  case isFalse hsum =>
    exact exec_lutBuild_of_overflow hf (mt (buildSums_fit_iff s.lut.freq).mp hsum)

/-- Settles O26, from read after write of the staging array. -/
theorem wfreqWritesOneEntry : Obligations.WfreqWritesOneEntry :=
  ⟨decode_lutWfreq_word, fun s sym val hf =>
    ⟨_, exec_lutWfreq hf sym val, readFreq_writeFreq_same sym val s.lut,
      fun _ hj => readFreq_writeFreq_other hj val s.lut, rfl⟩⟩

/-- Settles O27: after `LUT_WFREQ` the state is the one written to, so the read is a read after
write. -/
theorem rfreqRespondsWithEntry : Obligations.RfreqRespondsWithEntry := by
  refine ⟨decode_lutRfreq_word, fun _ => readFreq_lutReset, fun s t sym j val hf => ⟨?_, ?_⟩⟩
  · exact exec_lutRfreq hf j
  · intro hwrite
    rw [exec_lutWfreq hf] at hwrite
    injection hwrite with ht
    subst ht
    rw [← readFreq_writeFreq]
    exact exec_lutRfreq (s := { s with lut := writeFreq sym val s.lut }) hf j

/-- Settles O29: the index is checked first, then `LUT_VALID`; entry 0 of a built table is 0 by the
invariant of R113. -/
theorem lutRdRespondsOrFaults : Obligations.LutRdRespondsOrFaults := by
  refine ⟨decode_lutRd_word, fun s hinv hf hvalid => ?_, fun s idx hf => ⟨?_, ?_, ?_⟩⟩
  · have hzero : s.lut.cum[(0 : BitVec 9).toNat] = 0 := (hinv.lut hvalid).first
    exact hzero ▸ exec_lutRd_of_valid hf (idx := 0) (by decide) hvalid
  · exact fun hidx hvalid => exec_lutRd_of_valid hf hidx hvalid
  · exact fun hidx hvalid => exec_lutRd_of_not_valid hf hidx hvalid
  · exact fun hidx => exec_lutRd_of_bad_index hf (Nat.not_lt.mpr hidx)

end Sys2Proof.Machine
end

section
/-! `ENC_INIT` (42_range_encoder.md, R160): its command word, and what it does with no fault recorded. -/

namespace Sys2Proof

theorem decode_encInit_word : decode 0x0000000000000001 = .command .encInit :=
  decode_of_rowWord Laws.RowWord.encInit

namespace Machine

/-- R160: the encoder is replaced by the one at the start of a session, whatever its phase was. -/
theorem exec_encInit {s : State} (h : s.fault = false) :
    exec .encInit s = .next { s with enc := freshEncoder } :=
  command_ok h _

/-- Settles O34: the next state holds `freshEncoder`, whose registers are the values of R160. -/
theorem encInitStartsFresh : Obligations.EncInitStartsFresh :=
  ⟨decode_encInit_word, fun _ hf =>
    ⟨_, exec_encInit hf, rfl, rfl, rfl, rfl, rfl, rfl, rfl, rfl⟩⟩

end Machine
end Sys2Proof
end

section
/-! `DEC_INIT` (43_range_decoder.md, R200): its command word, the code bits a run of shifts reads, and
what the command does with no fault recorded. -/

namespace Sys2Proof

theorem decode_decInit_word : decode 0x0000000000000004 = .command .decInit :=
  decode_of_rowWord Laws.RowWord.decInit

namespace Machine

/-! ### A run of shifts (R200) -/

@[simp] theorem shiftCodeInMany_bitPos (n : Nat) (d : Decoder) :
    (shiftCodeInMany n d).bitPos = d.bitPos + n := by
  induction n generalizing d with
  | zero => rfl
  | succ n ih => rw [shiftCodeInMany, ih, shiftCodeIn_bitPos, Nat.add_assoc, Nat.add_comm 1]

@[simp] theorem shiftCodeInMany_input (n : Nat) (d : Decoder) :
    (shiftCodeInMany n d).input = d.input := by
  induction n generalizing d with
  | zero => rfl
  | succ n ih => rw [shiftCodeInMany, ih, shiftCodeIn_input]

/-- Later shifts move a code bit up without changing it. -/
theorem shiftCodeInMany_getLsbD_add (n : Nat) (d : Decoder) (i : Nat) (h : i + n < 32) :
    (shiftCodeInMany n d).code.getLsbD (i + n) = d.code.getLsbD i := by
  induction n generalizing d i with
  | zero => rfl
  | succ n ih =>
    calc
      (shiftCodeInMany n (shiftCodeIn d)).code.getLsbD (i + (n + 1))
        = (shiftCodeInMany n (shiftCodeIn d)).code.getLsbD ((i + 1) + n) := by
          rw [Nat.add_assoc, Nat.add_comm 1]
      _ = (shiftCodeIn d).code.getLsbD (i + 1) := ih _ _ (by omega)
      _ = d.code.getLsbD i := by
          rw [shiftCodeIn_getLsbD d _ (by omega), if_neg (Nat.succ_ne_zero i), Nat.add_sub_cancel]

/-- The bits `n` shifts read, the first of them highest: bit `k` of the run enters at the bottom, and the
`n - 1 - k` shifts after it move it up. -/
theorem shiftCodeInMany_getLsbD_read (n : Nat) (d : Decoder) (hn : n ≤ 32) (k : Nat) (hk : k < n) :
    (shiftCodeInMany n d).code.getLsbD (n - 1 - k) = streamBit d.input (d.bitPos + k) := by
  induction n generalizing d k with
  | zero => exact absurd hk (Nat.not_lt_zero k)
  | succ n ih =>
    rw [shiftCodeInMany]
    cases k with
    | zero =>
      have hup := shiftCodeInMany_getLsbD_add n (shiftCodeIn d) 0 (by omega)
      rw [Nat.zero_add] at hup
      rw [Nat.add_sub_cancel, Nat.sub_zero, hup, shiftCodeIn_getLsbD d 0 (by decide), if_pos rfl,
        Nat.add_zero]
    | succ k =>
      have hrest := ih (shiftCodeIn d) (by omega) k (by omega)
      rw [shiftCodeIn_input, shiftCodeIn_bitPos, Nat.add_assoc, Nat.add_comm 1] at hrest
      rw [show n + 1 - 1 - (k + 1) = n - 1 - k by omega, hrest]

/-! ### The decoder at the start of a session (R200) -/

@[simp] theorem initDecoder_low (input : List Byte) (d : Decoder) :
    (initDecoder input d).low = 0 := rfl
@[simp] theorem initDecoder_high (input : List Byte) (d : Decoder) :
    (initDecoder input d).high = 0xFFFFFFFF := rfl
@[simp] theorem initDecoder_active (input : List Byte) (d : Decoder) :
    (initDecoder input d).active = true := rfl

@[simp] theorem initDecoder_bitPos (input : List Byte) (d : Decoder) :
    (initDecoder input d).bitPos = 32 := by
  simp only [initDecoder, shiftCodeInMany_bitPos, Nat.zero_add]

@[simp] theorem initDecoder_input (input : List Byte) (d : Decoder) :
    (initDecoder input d).input = input := by
  simp only [initDecoder, shiftCodeInMany_input]

/-- `DEC_CODE` holds the first 32 bits of the sequence, the first in bit 31. -/
theorem initDecoder_code_getLsbD (input : List Byte) (d : Decoder) (k : Nat) (h : k < 32) :
    (initDecoder input d).code.getLsbD (31 - k) = streamBit input k := by
  have hread := shiftCodeInMany_getLsbD_read 32 { d with input := input, bitPos := 0, code := 0 }
    (Nat.le_refl 32) k h
  simpa only [initDecoder, Nat.zero_add] using hread

/-! ### The command -/

/-- R200: the decoder is replaced by the one at the start of a session on the sequence presented. -/
theorem exec_decInit {s : State} (h : s.fault = false) :
    exec .decInit s = .next { s with dec := initDecoder s.inPort s.dec } :=
  command_ok h _

/-- Settles O33: the next state holds `initDecoder` of the sequence presented, whose code is that
sequence's first 32 bits. -/
theorem decInitReadsFirstBits : Obligations.DecInitReadsFirstBits :=
  ⟨decode_decInit_word, fun s hf =>
    ⟨_, exec_decInit hf, initDecoder_low _ _, initDecoder_high _ _, initDecoder_bitPos _ _,
      initDecoder_active _ _, initDecoder_input _ _, initDecoder_code_getLsbD s.inPort s.dec, rfl⟩⟩

end Machine
end Sys2Proof
end

section
/-! `NOP` (44_control.md, R240): what a row of R85 says of the words that decode to it, and that the row
of `NOP` has one word. -/

namespace Sys2Proof

/-- The command of a row is a command of that row. -/
@[simp] theorem Mnemonic.mnemonic_command (w : CmdWord) (m : Mnemonic) :
    (m.command w).mnemonic = m := by
  cases m <;> rfl

/-- R86, for an opcode with a row: the reserved bits decide. -/
theorem decode_of_ofOpcode {w : CmdWord} {m : Mnemonic}
    (h : Mnemonic.ofOpcode (opField w) = some m) :
    decode w = if w &&& m.mask = m.pattern then .command (m.command w) else .illegal .reservedBit := by
  simp only [decode, h]

/-- A word that decodes to a command matches the row of that command (R85). -/
theorem and_mask_of_decode {w : CmdWord} {i : Instr} (h : decode w = .command i) :
    w &&& i.mnemonic.mask = i.mnemonic.pattern := by
  cases hrow : Mnemonic.ofOpcode (opField w) with
  | none => simp [decode, hrow] at h
  | some m =>
    rw [decode_of_ofOpcode hrow] at h
    split at h
    case isTrue hmask =>
      injection h with hi
      rw [← hi, Mnemonic.mnemonic_command, hmask]
    case isFalse => cases h

/-- The mask of `NOP` is full and its pattern 0: no other word matches its row (R85). -/
theorem and_mask_nop_iff (w : CmdWord) :
    w &&& Mnemonic.nop.mask = Mnemonic.nop.pattern ↔ w = 0 := by
  have hmask : Mnemonic.nop.mask = BitVec.allOnes 64 := rfl
  rw [hmask, BitVec.and_allOnes]
  rfl

theorem decode_eq_nop_iff (w : CmdWord) : decode w = .command .nop ↔ w = 0 := by
  constructor
  · exact fun h => (and_mask_nop_iff w).mp (and_mask_of_decode h)
  · rintro rfl
    exact decode_of_rowWord Laws.RowWord.nop

/-- R87: a word of opcode 0x00 with a reserved bit set is illegal. -/
theorem decode_of_opcode_zero {w : CmdWord} (hop : opField w = 0x00) (hw : w ≠ 0) :
    decode w = .illegal .reservedBit := by
  have hrow : Mnemonic.ofOpcode (opField w) = some .nop := by rw [hop]; rfl
  rw [decode_of_ofOpcode hrow, if_neg (mt (and_mask_nop_iff w).mp hw)]

namespace Machine

/-- R240, R265: `NOP` goes through no check, so it completes in a faulted state too. -/
theorem exec_nop (s : State) : exec .nop s = .next s := rfl

/-- Settles O24: `NOP` answers the state it is given, and its row has a full mask. -/
theorem nopChangesNothing : Obligations.NopChangesNothing :=
  ⟨exec_nop, fun w => ⟨decode_eq_nop_iff w, fun hop hw => ⟨_, decode_of_opcode_zero hop hw⟩⟩⟩

end Machine
end Sys2Proof
end

section
/-! `RDREG` (44_control.md, R242): its command word, the fields of the register map (R38), and what the
command answers, with and without a fault recorded. -/

namespace Sys2Proof

theorem decode_rdreg_word (reg : Byte) :
    decode ((0 : BitVec 48) ++ reg ++ (0x0A : BitVec 8)) = .command (.rdreg reg) := by
  rw [append_eq_formatX]
  refine (decode_of_rowWord (Laws.RowWord.rdreg reg)).trans ?_
  simp only [encode, Instr.mnemonic, Mnemonic.command, symField_formatX]

namespace Machine

/-! ### The fields of a register (R38) -/

/-- A bit of a field of a register. -/
theorem getLsbD_regFieldAt {n : Nat} (lo : Nat) (x : BitVec n) (i : Nat) (h : i < 32) :
    (regFieldAt lo x).getLsbD i = (decide (lo ≤ i) && x.getLsbD (i - lo)) := by
  by_cases hl : lo ≤ i
  · simp [regFieldAt, h, hl]
  · simp [regFieldAt, h, hl, Nat.not_le.mp hl]

@[simp] theorem regFieldAt_getElem {n : Nat} (lo : Nat) (x : BitVec n) (i : Nat) (h : i < 32) :
    (regFieldAt lo x)[i] = (decide (lo ≤ i) && x.getLsbD (i - lo)) := by
  rw [← BitVec.getLsbD_eq_getElem h, getLsbD_regFieldAt lo x i h]

/-- A field read back at its own place. -/
theorem extractLsb'_regFieldAt {n : Nat} (lo : Nat) (x : BitVec n) (h : lo + n ≤ 32) :
    (regFieldAt lo x).extractLsb' lo n = x := by
  ext i hi
  rw [BitVec.getElem_extractLsb', getLsbD_regFieldAt lo x (lo + i) (by omega)]
  simp [BitVec.getLsbD_eq_getElem hi]

/-- A field has no bits outside its own place. -/
theorem extractLsb'_regFieldAt_outside {n : Nat} (lo : Nat) (x : BitVec n) (lo' k : Nat)
    (h : lo + n ≤ lo' ∨ lo' + k ≤ lo) (hk : lo' + k ≤ 32) :
    (regFieldAt lo x).extractLsb' lo' k = 0#k := by
  ext i hi
  rw [BitVec.getElem_extractLsb', getLsbD_regFieldAt lo x (lo' + i) (by omega)]
  rcases h with h | h
  · simp [BitVec.getLsbD_of_ge x (lo' + i - lo) (by omega)]
  · simp [show ¬ lo ≤ lo' + i by omega]

/-! ### `STATUS` and `ENC_BITS` (R38) -/

theorem statusWord_phase (s : State) : (statusWord s).extractLsb' 0 2 = phaseBits s.enc.phase := by
  simp (disch := omega) [statusWord, BitVec.extractLsb'_or, extractLsb'_regFieldAt,
    extractLsb'_regFieldAt_outside]

theorem statusWord_active (s : State) : (statusWord s).getLsbD 2 = s.dec.active := by
  simp [statusWord]

theorem statusWord_valid (s : State) : (statusWord s).getLsbD 3 = s.lut.valid := by
  simp [statusWord]

theorem statusWord_fault (s : State) : (statusWord s).getLsbD 4 = s.fault := by
  simp [statusWord]

theorem statusWord_faultCode (s : State) : (statusWord s).extractLsb' 8 8 = s.faultCode := by
  simp (disch := omega) [statusWord, BitVec.extractLsb'_or, extractLsb'_regFieldAt,
    extractLsb'_regFieldAt_outside]

/-- Bits 7 to 5 and 31 to 16 of `STATUS` are reserved. -/
theorem statusWord_reserved (s : State) :
    (statusWord s).extractLsb' 5 3 = 0 ∧ (statusWord s).extractLsb' 16 16 = 0 := by
  constructor <;>
    simp (disch := omega) [statusWord, BitVec.extractLsb'_or, extractLsb'_regFieldAt_outside]

theorem encBitsWord_fields (e : Encoder) :
    (encBitsWord e).extractLsb' 0 8 = e.bitBuf ∧ (encBitsWord e).extractLsb' 8 3 = e.bitCnt ∧
      (encBitsWord e).extractLsb' 11 21 = 0 := by
  refine ⟨?_, ?_, ?_⟩ <;>
    simp (disch := omega) [encBitsWord, BitVec.extractLsb'_or, extractLsb'_regFieldAt,
      extractLsb'_regFieldAt_outside]

/-! ### The register map (R38) -/

/-- The registers are numbered 0x00 to 0x0A. -/
theorem regValue_isSome_iff (s : State) (reg : Byte) :
    (regValue s reg).isSome ↔ reg.toNat ≤ 0x0A := by
  fun_cases regValue s reg
  case case12 =>
    simp only [imp_false, Option.isSome_none, Bool.false_eq_true, false_iff] at *
    omega
  all_goals
    simp only [Option.isSome_some, true_iff]
    omega

theorem exists_regValue {reg : Byte} (h : reg.toNat ≤ 0x0A) (s : State) :
    ∃ v, regValue s reg = some v :=
  Option.isSome_iff_exists.mp ((regValue_isSome_iff s reg).mpr h)

theorem regValue_eq_none {reg : Byte} (h : 0x0A < reg.toNat) (s : State) :
    regValue s reg = none :=
  Option.not_isSome_iff_eq_none.mp (mt (regValue_isSome_iff s reg).mp (Nat.not_le.mpr h))

/-! ### The command (R242) -/

/-- A register that exists is the response, whether a fault is recorded or not (R265). -/
theorem exec_rdreg_of_some {s : State} {reg : Byte} {v : Word} (h : regValue s reg = some v) :
    exec (.rdreg reg) s = .next (respond v s) := by
  simp only [exec, execRdreg, h]

/-- A number above 0x0A goes through the common check of R262. -/
theorem exec_rdreg_of_gt {reg : Byte} (h : 0x0A < reg.toNat) (s : State) :
    exec (.rdreg reg) s = command s (.error (.raise .badIndex)) := by
  simp only [exec, execRdreg, regValue_eq_none h s]

/-- Settles O25: a number up to 0x0A names one row of `regValue`, whose word is the response; any other
raises `BAD_INDEX` through the common check. -/
theorem rdregRespondsWithRegisterMap : Obligations.RdregRespondsWithRegisterMap := by
  refine ⟨decode_rdreg_word, fun s reg hreg => ?_, fun s reg hreg => ?_⟩
  · rw [exec_rdreg_of_gt hreg]
    rfl
  · obtain ⟨v, hv⟩ := exists_regValue hreg s
    have row {r : Byte} {x : Word} (hx : regValue s r = some x) (hr : reg = r) : v = x := by
      subst hr
      exact Option.some.inj (hv.symm.trans hx)
    refine ⟨v, exec_rdreg_of_some hv, fun hr => ?_, row rfl, row rfl, row rfl, row rfl, fun hr => ?_,
      fun hr => ?_, row rfl, row rfl, row rfl, fun hr => ?_⟩
    · have hstatus : v = statusWord s := row rfl hr
      obtain ⟨hlow, hhigh⟩ := statusWord_reserved s
      subst hstatus
      refine ⟨?_, statusWord_active s, statusWord_valid s, statusWord_fault s, hlow,
        statusWord_faultCode s, hhigh⟩
      rw [statusWord_phase]
      cases s.enc.phase <;> rfl
    · have hbits : v = encBitsWord s.enc := row rfl hr
      exact hbits ▸ encBitsWord_fields s.enc
    · have hout : v = BitVec.ofNat 32 s.enc.out.length := row rfl hr
      rw [hout, BitVec.toNat_ofNat]
    · have hpos : v = BitVec.ofNat 32 s.dec.bitPos := row rfl hr
      rw [hpos, BitVec.toNat_ofNat]

end Machine
end Sys2Proof
end

section
/-! Fault entry (60_exceptions.md, R264): no command's own rule writes `FAULT`, so a command ends with
a fault recorded only by raising one, and what raises it leaves the state as it was. -/

namespace Sys2Proof.Machine

/-! ### A rule that completes leaves `FAULT` as it was -/

theorem encSymRule_keeps_fault {m : TableSel} {sym : Byte} {s t : State}
    (h : encSymRule m sym s = .ok t) : t.fault = s.fault := by
  obtain ⟨-, -, f, e, -, -, -, rfl⟩ := encSymRule_ok h
  rfl

theorem encFinRule_keeps_fault {s t : State} (h : encFinRule s = .ok t) : t.fault = s.fault := by
  obtain ⟨-, e, -, rfl⟩ := encFinRule_ok h
  rfl

theorem decSymRule_keeps_fault {m : TableSel} {s t : State} (h : decSymRule m s = .ok t) :
    t.fault = s.fault := by
  obtain ⟨-, -, r, -, rfl⟩ := decSymRule_ok h
  rfl

theorem lutBuildRule_keeps_fault {s t : State} (h : lutBuildRule s = .ok t) :
    t.fault = s.fault := by
  rw [lutBuildRule_cases] at h
  split at h
  · cases h; rfl
  · cases h

theorem lutRdRule_keeps_fault {idx : BitVec 9} {s t : State} (h : lutRdRule idx s = .ok t) :
    t.fault = s.fault := by
  rw [lutRdRule_cases] at h
  split at h
  · split at h
    · cases h; rfl
    · cases h
  · cases h

/-! ### Fault entry (R264) -/

/-- A command whose own rule leaves `FAULT` as it was ends faulted only by raising a fault. -/
theorem command_eq_takeFault {s t : State} {body : Except Abort State} (hf : s.fault = false)
    (hkeep : ∀ {u}, body = .ok u → u.fault = s.fault) (h : command s body = .next t)
    (ht : t.fault = true) : ∃ c, t = takeFault c s := by
  obtain ⟨hs, -⟩ | ⟨-, hok⟩ | ⟨-, c, -, htake⟩ := command_next h
  · exact absurd hs (by simp [hf])
  · exact absurd ht (by simp [hkeep hok, hf])
  · exact ⟨c, htake⟩

/-- A command that begins with no fault recorded ends faulted only by fault entry. `NOP` and a `RDREG`
that responds go past the common check of R262, and they leave `FAULT` as it was too. -/
theorem exec_eq_takeFault {i : Instr} {s t : State} (hf : s.fault = false)
    (h : exec i s = .next t) (ht : t.fault = true) : ∃ c, t = takeFault c s := by
  cases i with
  | nop =>
    rw [exec_nop] at h
    cases h
    exact absurd ht (by simp [hf])
  | encInit | decInit | lutWfreq | lutRfreq =>
    exact command_eq_takeFault hf (fun hu => by cases hu; rfl) h ht
  | encSym m sym => exact command_eq_takeFault hf encSymRule_keeps_fault h ht
  | encFin => exact command_eq_takeFault hf encFinRule_keeps_fault h ht
  | decSym m => exact command_eq_takeFault hf decSymRule_keeps_fault h ht
  | lutBuild => exact command_eq_takeFault hf lutBuildRule_keeps_fault h ht
  | lutRd idx => exact command_eq_takeFault hf lutRdRule_keeps_fault h ht
  | rdreg reg =>
    cases hreg : regValue s reg with
    | some v =>
      rw [exec_rdreg_of_some hreg] at h
      cases h
      exact absurd ht (by simp [hf])
    | none =>
      simp only [exec, execRdreg, hreg] at h
      exact command_eq_takeFault hf (fun hu => by cases hu) h ht

/-- Settles O12: a command that ends faulted is a fault entry, which writes `FAULT` and `FAULT_CODE`
only; an illegal word and a raised code are fault entries by the common check of R262. -/
theorem faultEntryIsPrecise : Obligations.FaultEntryIsPrecise := by
  refine ⟨fun i s t hf h ht => ?_, fun s hf => command_raise hf .illegalCmd, fun s c hf => ?_⟩
  · obtain ⟨c, rfl⟩ := exec_eq_takeFault hf h ht
    obtain ⟨hlow, hhigh⟩ := faultNumber_range c
    exact ⟨rfl, hlow, hhigh, rfl⟩
  · rw [command_raise hf]
    cases c <;> rfl

end Sys2Proof.Machine
end

section
/-! `MAX_TOTAL` (70_reset_and_hazards.md, R292): what one step can do, said once, and that neither a
command, nor an illegal word, nor a reset writes that parameter. -/

namespace Sys2Proof.Machine

/-- All a step can do when it answers a next state: wait, take the reset event, or act on the word
taken off the port (R60, R262, R275, R290). -/
theorem step_next {s t : State} (h : step s = .next t) :
    (s.pending = [] ∧ t = s) ∨
    (∃ word rest, s.pending = .reset word :: rest ∧ t = applyReset { s with pending := rest }) ∨
    ∃ w stream rest, s.pending = .command w stream :: rest ∧
      ((∃ i, decode w = .command i ∧ exec i { s with pending := rest, inPort := stream } = .next t) ∨
        ∃ why, decode w = .illegal why ∧
          execIllegal { s with pending := rest, inPort := stream } = .next t) := by
  cases hp : s.pending with
  | nil =>
    simp only [step, takeInput, hp] at h
    cases h
    exact .inl ⟨rfl, rfl⟩
  | cons input rest =>
    cases input with
    | reset word =>
      simp only [step, takeInput, hp] at h
      cases h
      exact .inr (.inl ⟨word, rest, rfl, rfl⟩)
    | command w stream =>
      refine .inr (.inr ⟨w, stream, rest, rfl, ?_⟩)
      cases hd : decode w with
      | command i =>
        simp only [step, takeInput, hp, hd] at h
        exact .inl ⟨i, rfl, h⟩
      | illegal why =>
        simp only [step, takeInput, hp, hd] at h
        exact .inr ⟨why, rfl, h⟩

/-- All `LUT_BUILD` can do when it completes (R112). -/
theorem lutBuildRule_ok {s t : State} (h : lutBuildRule s = .ok t) :
    t = { s with lut := { s.lut with cum := buildTable s.lut.freq, valid := true } } := by
  rw [lutBuildRule_cases] at h
  split at h
  · cases h; rfl
  · cases h

/-- All `LUT_RD` can do when it completes (R114). -/
theorem lutRdRule_ok {idx : BitVec 9} {s t : State} (h : lutRdRule idx s = .ok t) :
    ∃ v, t = respond v s := by
  rw [lutRdRule_cases] at h
  split at h
  · split at h
    · cases h; exact ⟨_, rfl⟩
    · cases h
  · cases h

/-- A discarded word and fault entry leave `MAX_TOTAL` alone (R264, R265), so a command keeps it if its
own rule does. -/
theorem command_keeps_maxTotal {s t : State} {body : Except Abort State}
    (hkeep : ∀ {u}, body = .ok u → u.maxTotal = s.maxTotal) (h : command s body = .next t) :
    t.maxTotal = s.maxTotal := by
  obtain ⟨-, rfl⟩ | ⟨-, hok⟩ | ⟨-, c, -, rfl⟩ := command_next h
  · rfl
  · exact hkeep hok
  · exact takeFault_maxTotal c s

theorem exec_keeps_maxTotal {i : Instr} {s t : State} (h : exec i s = .next t) :
    t.maxTotal = s.maxTotal := by
  cases i with
  | nop =>
    rw [exec_nop] at h
    cases h
    rfl
  | encInit | decInit | lutWfreq | lutRfreq =>
    exact command_keeps_maxTotal (fun hu => by cases hu; rfl) h
  | encSym m sym =>
    refine command_keeps_maxTotal (fun hu => ?_) h
    obtain ⟨-, -, f, e, -, -, -, rfl⟩ := encSymRule_ok hu
    rfl
  | encFin =>
    refine command_keeps_maxTotal (fun hu => ?_) h
    obtain ⟨-, e, -, rfl⟩ := encFinRule_ok hu
    rfl
  | decSym m =>
    refine command_keeps_maxTotal (fun hu => ?_) h
    obtain ⟨-, -, r, -, rfl⟩ := decSymRule_ok hu
    rfl
  | lutBuild => exact command_keeps_maxTotal (fun hu => by rw [lutBuildRule_ok hu]) h
  | lutRd idx =>
    refine command_keeps_maxTotal (fun hu => ?_) h
    obtain ⟨v, rfl⟩ := lutRdRule_ok hu
    rfl
  | rdreg reg =>
    cases hreg : regValue s reg with
    | some v =>
      rw [exec_rdreg_of_some hreg] at h
      cases h
      rfl
    | none =>
      simp only [exec, execRdreg, hreg] at h
      exact command_keeps_maxTotal (fun hu => by cases hu) h

theorem execIllegal_keeps_maxTotal {s t : State} (h : execIllegal s = .next t) :
    t.maxTotal = s.maxTotal :=
  command_keeps_maxTotal (fun hu => by cases hu) h

theorem step_keeps_maxTotal {s t : State} (h : step s = .next t) : t.maxTotal = s.maxTotal := by
  obtain ⟨-, rfl⟩ | ⟨word, rest, -, rfl⟩ | ⟨w, stream, rest, -, ⟨i, -, hexec⟩ | ⟨why, -, hill⟩⟩ :=
    step_next h
  · rfl
  · exact applyReset_maxTotal _
  · exact (exec_keeps_maxTotal hexec).trans rfl
  · exact (execIllegal_keeps_maxTotal hill).trans rfl

/-- The register map reads `MAX_TOTAL` at `CONFIG` (R38). -/
theorem regValue_config (s : State) : regValue s 0x01 = some s.maxTotal := rfl

/-- Settles O15: the step keeps the parameter in each of its cases, and `CONFIG` reads it. -/
theorem maxTotalIsConstant : Obligations.MaxTotalIsConstant := by
  intro s t h
  have hkeep := step_keeps_maxTotal h
  exact ⟨hkeep, by rw [regValue_config, hkeep]⟩

end Sys2Proof.Machine
end

section
/-! Decoding every word (30_encoding.md, R82 to R89): the fields of a row's word are the command's
operands, and a word is the bits of its row's mask beside the bits of its fields. -/

namespace Sys2Proof

/-! ### The word of a command (R82, R83) -/

theorem mField_eq_built_iff (w : CmdWord) : mField w = .built ↔ w.getLsbD 16 = true := by
  unfold mField
  split
  case isTrue h => exact iff_of_true rfl h
  case isFalse h => exact iff_of_false nofun h

/-- The select bit read from a word stands in it at bit 16. -/
theorem bit_mField (w : CmdWord) : (mField w).bit = w.extractLsb' 16 1 := by
  have hbit : (mField w).bit = BitVec.ofBool (w.getLsbD 16) := by
    unfold mField
    cases w.getLsbD 16 <;> rfl
  rw [hbit]
  ext i hi
  obtain rfl : i = 0 := by omega
  simp

/-- A word whose bit 16 is a select bit has that table select. -/
theorem mField_of_extract {w : CmdWord} {m : TableSel} (h : w.extractLsb' 16 1 = m.bit) :
    mField w = m := by
  have hbit : w.getLsbD 16 = m.bit.getLsbD 0 := by
    rw [← h, BitVec.getLsbD_extractLsb']
    rfl
  rw [mField, hbit]
  cases m <;> rfl

theorem mField_formatS (m : TableSel) (sym op : Byte) : mField (formatS m sym op) = m := by
  apply mField_of_extract
  rw [formatS, BitVec.extractLsb'_or, BitVec.extractLsb'_or,
    extractLsb'_fieldAt 16 m.bit (by decide),
    extractLsb'_fieldAt_above 8 sym 16 1 (by decide) (by decide),
    extractLsb'_fieldAt_above 0 op 16 1 (by decide) (by decide), BitVec.or_zero, BitVec.or_zero]

theorem mField_formatD (m : TableSel) (op : Byte) : mField (formatD m op) = m := by
  apply mField_of_extract
  rw [formatD, BitVec.extractLsb'_or, extractLsb'_fieldAt 16 m.bit (by decide),
    extractLsb'_fieldAt_above 0 op 16 1 (by decide) (by decide), BitVec.or_zero]

theorem symField_formatS (m : TableSel) (sym op : Byte) : symField (formatS m sym op) = sym := by
  rw [symField, formatS, BitVec.extractLsb'_or, BitVec.extractLsb'_or,
    extractLsb'_fieldAt_below 16 m.bit 8 8 (by decide) (by decide),
    extractLsb'_fieldAt 8 sym (by decide),
    extractLsb'_fieldAt_above 0 op 8 8 (by decide) (by decide), BitVec.zero_or, BitVec.or_zero]

/-- The word of every command selects the command's own row of R85. -/
theorem rowWord (i : Instr) : Laws.RowWord.Statement i :=
  match i with
  | .nop => Laws.RowWord.nop
  | .encInit => Laws.RowWord.encInit
  | .encSym m sym => Laws.RowWord.encSym m sym
  | .encFin => Laws.RowWord.encFin
  | .decInit => Laws.RowWord.decInit
  | .decSym m => Laws.RowWord.decSym m
  | .lutWfreq sym val => Laws.RowWord.lutWfreq sym val
  | .lutRfreq sym => Laws.RowWord.lutRfreq sym
  | .lutBuild => Laws.RowWord.lutBuild
  | .lutRd idx => Laws.RowWord.lutRd idx
  | .rdreg reg => Laws.RowWord.rdreg reg

/-- The fields of a command's word are its operands. -/
theorem command_encode (i : Instr) : i.mnemonic.command (encode i) = i := by
  cases i with
  | nop | encInit | encFin | decInit | lutBuild => rfl
  | encSym m sym =>
    simp only [encode, Instr.mnemonic, Mnemonic.command, mField_formatS, symField_formatS]
  | decSym m => simp only [encode, Instr.mnemonic, Mnemonic.command, mField_formatD]
  | lutWfreq sym val =>
    simp only [encode, Instr.mnemonic, Mnemonic.command, symField_formatW, valField_formatW]
  | lutRfreq sym | rdreg reg =>
    simp only [encode, Instr.mnemonic, Mnemonic.command, symField_formatX]
  | lutRd idx => simp only [encode, Instr.mnemonic, Mnemonic.command, idxField_formatI]

theorem decode_encode (i : Instr) : decode (encode i) = .command i := by
  rw [decode_of_rowWord (rowWord i), command_encode]

/-- Settles O1: the word of a command selects the command's row, and its fields are the operands. -/
theorem decodeOfEncode : Obligations.DecodeOfEncode := decode_encode

/-! ### A word as its fields (R82) -/

/-- A field taken out of a word and put back at its place is the word masked to the field. -/
theorem fieldAt_extractLsb' (w : CmdWord) (lo n : Nat) :
    fieldAt lo (w.extractLsb' lo n) = w &&& fieldAt lo (BitVec.allOnes n) := by
  ext i hi
  by_cases hl : lo ≤ i
  · simp [hl, Nat.add_sub_cancel' hl, BitVec.getLsbD_eq_getElem hi, Bool.and_comm]
  · simp [hl]

/-- A field that lies in the word is 0 exactly when its bits in the word are. -/
theorem fieldAt_eq_zero_iff {n lo : Nat} (x : BitVec n) (h : lo + n ≤ 64) :
    fieldAt lo x = 0#64 ↔ x = 0#n := by
  constructor
  · intro hx
    rw [← extractLsb'_fieldAt lo x h, hx]
    simp
  · rintro rfl
    exact fieldAt_zero lo

/-- The bits of a row's fields are those outside its mask (R85), so that the word of the fields'
command is the row's pattern beside the word's bits outside the mask. -/
theorem encode_command (w : CmdWord) (m : Mnemonic) :
    encode (m.command w) = (w &&& ~~~m.mask) ||| m.pattern := by
  cases m with
  | nop | encInit | encFin | decInit | lutBuild =>
    change _ = (w &&& 0#64) ||| _
    rw [BitVec.and_zero, BitVec.zero_or]
    rfl
  | encSym =>
    simp only [Mnemonic.command, encode, formatS, bit_mField, symField, fieldAt_extractLsb',
      ← BitVec.and_or_distrib_left]
    exact congrArg₂ (· ||| ·) (congrArg (w &&& ·) (by decide)) (by decide)
  | decSym =>
    simp only [Mnemonic.command, encode, formatD, bit_mField, fieldAt_extractLsb']
    exact congrArg₂ (· ||| ·) (congrArg (w &&& ·) (by decide)) (by decide)
  | lutWfreq =>
    simp only [Mnemonic.command, encode, formatW, symField, valField, fieldAt_extractLsb',
      ← BitVec.and_or_distrib_left]
    exact congrArg₂ (· ||| ·) (congrArg (w &&& ·) (by decide)) (by decide)
  | lutRfreq | rdreg =>
    simp only [Mnemonic.command, encode, formatX, symField, fieldAt_extractLsb']
    exact congrArg₂ (· ||| ·) (congrArg (w &&& ·) (by decide)) (by decide)
  | lutRd =>
    simp only [Mnemonic.command, encode, formatI, idxField, fieldAt_extractLsb']
    exact congrArg₂ (· ||| ·) (congrArg (w &&& ·) (by decide)) (by decide)

/-- A word that decodes to a command has a row, and the command is the row's with the word's fields. -/
theorem command_of_decode {w : CmdWord} {i : Instr} (h : decode w = .command i) :
    i.mnemonic.command w = i := by
  cases hrow : Mnemonic.ofOpcode (opField w) with
  | none => simp [decode, hrow] at h
  | some m =>
    rw [decode_of_ofOpcode hrow] at h
    split at h
    case isTrue => injection h with hi; rw [← hi, Mnemonic.mnemonic_command]
    case isFalse => cases h

/-- Settles O2: outside the mask the word's bits are the fields, and inside it the pattern's. -/
theorem encodeOfDecode : Obligations.EncodeOfDecode := by
  intro w i h
  calc
    encode i = encode (i.mnemonic.command w) := by rw [command_of_decode h]
    _ = (w &&& ~~~i.mnemonic.mask) ||| (w &&& i.mnemonic.mask) := by
      rw [encode_command, and_mask_of_decode h]
    _ = w := by
      rw [← BitVec.and_or_distrib_left, BitVec.or_comm, BitVec.or_not_self, BitVec.and_allOnes]

/-- Every mask covers the opcode, so a word that decodes has the opcode of its row. -/
theorem opField_of_decode {w : CmdWord} {i : Instr} (h : decode w = .command i) :
    opField w = opField i.mnemonic.pattern := by
  have hmask : opField i.mnemonic.mask = BitVec.allOnes 8 := by
    cases i.mnemonic <;> rfl
  rw [← and_mask_of_decode h, opField, opField, BitVec.extractLsb'_and]
  change _ = _ &&& opField i.mnemonic.mask
  rw [hmask, BitVec.and_allOnes]

/-- Settles O4: the operands are the fields of the row's command, which is the command decoded. -/
theorem operandsAreTheFields : Obligations.OperandsAreTheFields := by
  intro w i h
  have hop := opField_of_decode h
  have hcmd := command_of_decode h
  cases i with
  | nop | encInit | encFin | decInit | lutBuild => exact hop
  | encSym m sym =>
    obtain ⟨rfl, rfl⟩ := Instr.encSym.inj hcmd
    exact ⟨hop, mField_eq_built_iff w, rfl⟩
  | decSym m =>
    obtain rfl := Instr.decSym.inj hcmd
    exact ⟨hop, mField_eq_built_iff w⟩
  | lutWfreq sym val =>
    obtain ⟨rfl, rfl⟩ := Instr.lutWfreq.inj hcmd
    exact ⟨hop, rfl, rfl⟩
  | lutRfreq sym =>
    obtain rfl := Instr.lutRfreq.inj hcmd
    exact ⟨hop, rfl⟩
  | lutRd idx =>
    obtain rfl := Instr.lutRd.inj hcmd
    exact ⟨hop, rfl⟩
  | rdreg reg =>
    obtain rfl := Instr.rdreg.inj hcmd
    exact ⟨hop, rfl⟩

/-! ### Illegal words (R87) -/

/-- A bit of `w` that no field of the row's format covers is 1 (R82). -/
def Mnemonic.ReservedSet (w : CmdWord) : Mnemonic → Prop
  | .nop | .encInit | .encFin | .decInit | .lutBuild => w.extractLsb' 8 56 ≠ 0
  | .encSym | .lutRd => w.extractLsb' 17 47 ≠ 0
  | .decSym => w.extractLsb' 17 47 ≠ 0 ∨ w.extractLsb' 8 8 ≠ 0
  | .lutWfreq => w.extractLsb' 16 16 ≠ 0
  | .lutRfreq | .rdreg => w.extractLsb' 16 48 ≠ 0

/-- The bits of a field are all 0 exactly when the field is. -/
theorem and_fieldAt_allOnes_eq_zero_iff (w : CmdWord) {lo n : Nat} (h : lo + n ≤ 64) :
    w &&& fieldAt lo (BitVec.allOnes n) = 0#64 ↔ w.extractLsb' lo n = 0#n := by
  rw [← fieldAt_extractLsb', fieldAt_eq_zero_iff _ h]

/-- A mask is the opcode byte and the row's reserved bits `r`. -/
theorem and_mask_eq_pattern_iff {w r : CmdWord} {m : Mnemonic} (hop : opField w = opField m.pattern)
    (hmask : m.mask = fieldAt 0 (BitVec.allOnes 8) ||| r)
    (hr : r &&& fieldAt 0 (BitVec.allOnes 8) = 0#64) :
    w &&& m.mask = m.pattern ↔ w &&& r = 0#64 := by
  have hpat : m.pattern = w &&& fieldAt 0 (BitVec.allOnes 8) := by
    rw [← fieldAt_extractLsb']
    change _ = fieldAt 0 (opField w)
    rw [hop]
    cases m <;> rfl
  rw [hpat, hmask, BitVec.and_or_distrib_left]
  constructor
  · intro h
    have hand := congrArg (· &&& r) h
    simp only [BitVec.and_or_distrib_right] at hand
    rwa [BitVec.and_assoc, BitVec.and_comm _ r, hr, BitVec.and_assoc, BitVec.and_self,
      BitVec.and_zero, BitVec.zero_or] at hand
  · intro h
    rw [h, BitVec.or_zero]

/-- A word of a row matches it exactly when no reserved bit is 1. -/
theorem and_mask_ne_pattern_iff {w : CmdWord} {m : Mnemonic} (hop : opField w = opField m.pattern) :
    w &&& m.mask ≠ m.pattern ↔ m.ReservedSet w := by
  have single {lo n : Nat} (h : lo + n ≤ 64)
      (hmask : m.mask = fieldAt 0 (BitVec.allOnes 8) ||| fieldAt lo (BitVec.allOnes n))
      (hr : fieldAt lo (BitVec.allOnes n) &&& fieldAt 0 (BitVec.allOnes 8) = 0#64) :
      w &&& m.mask ≠ m.pattern ↔ w.extractLsb' lo n ≠ 0#n :=
    not_congr ((and_mask_eq_pattern_iff hop hmask hr).trans (and_fieldAt_allOnes_eq_zero_iff w h))
  cases m with
  | nop | encInit | encFin | decInit | lutBuild => exact single (by decide) (by decide) (by decide)
  | encSym | lutRd => exact single (by decide) (by decide) (by decide)
  | lutWfreq => exact single (by decide) (by decide) (by decide)
  | lutRfreq | rdreg => exact single (by decide) (by decide) (by decide)
  | decSym =>
    rw [Ne, and_mask_eq_pattern_iff (r := fieldAt 17 (BitVec.allOnes 47) |||
      fieldAt 8 (BitVec.allOnes 8)) hop (by decide) (by decide), BitVec.and_or_distrib_left,
      BitVec.or_eq_zero_iff, and_fieldAt_allOnes_eq_zero_iff w (by decide),
      and_fieldAt_allOnes_eq_zero_iff w (by decide), not_and_or]
    rfl

/-- The opcode of a row is the one in its pattern (R84, R85). -/
theorem opField_of_ofOpcode {op : Byte} {m : Mnemonic} (h : Mnemonic.ofOpcode op = some m) :
    op = opField m.pattern := by
  revert h
  fun_cases Mnemonic.ofOpcode op
  case case12 => exact nofun
  all_goals
    intro h
    cases h
    apply BitVec.eq_of_toNat_eq
    assumption

/-- R86, R87: a word is illegal when its opcode has no row, or a reserved bit of its row is 1. -/
theorem decode_illegal_iff (w : CmdWord) :
    (∃ why, decode w = .illegal why) ↔
      ∀ m, Mnemonic.ofOpcode (opField w) = some m → m.ReservedSet w := by
  cases hrow : Mnemonic.ofOpcode (opField w) with
  | none => simp [decode, hrow]
  | some m =>
    have hres := and_mask_ne_pattern_iff (opField_of_ofOpcode hrow)
    rw [decode_of_ofOpcode hrow]
    constructor
    · rintro ⟨why, h⟩ m' ⟨⟩
      split at h
      case isTrue => cases h
      case isFalse hmask => exact hres.mp hmask
    · intro h
      exact ⟨.reservedBit, if_neg (hres.mpr (h m rfl))⟩

/-- Settles O3: the reserved bits of each opcode are those its row's mask covers beside the opcode. -/
theorem illegalExactlyReserved : Obligations.IllegalExactlyReserved := by
  intro w
  rw [decode_illegal_iff]
  have hop : (w.extractLsb' 0 8).toNat = (opField w).toNat := rfl
  simp only [hop]
  generalize opField w = op
  fun_cases Mnemonic.ofOpcode op
  case case12 =>
    simp only [imp_false] at *
    simp
    omega
  all_goals
    rename_i hk
    simp [hk, Mnemonic.ReservedSet]

/-! ### The assembler (R89) -/

/-- A line whose operands are in range assembles to a word that decodes to its command. -/
theorem assemble_of_wellFormed {line : AsmLine} (h : line.wellFormed = true) :
    ∃ w, line.assemble = some w ∧ decode w = .command line.command :=
  ⟨encode line.command, if_pos h, decode_encode _⟩

/-- A line that is well formed exactly in the range `P` gives its word there and none outside. -/
theorem assemble_in_range {line : AsmLine} {P Q : Prop} [Decidable P]
    (hwf : line.wellFormed = true ↔ P)
    (hQ : P → (∃ w, line.assemble = some w ∧ decode w = .command line.command) → Q) :
    if P then Q else line.assemble = none := by
  split
  case isTrue h => exact hQ h (assemble_of_wellFormed (hwf.mpr h))
  case isFalse h => exact if_neg (mt hwf.mp h)

/-- A number that fits a field is the field's value. -/
theorem toNat_ofNat_of_lt {n x : Nat} (h : x < 2 ^ n) : (BitVec.ofNat n x).toNat = x :=
  (BitVec.toNat_ofNat x n).trans (Nat.mod_eq_of_lt h)

/-- Settles O6: each form of line is well formed exactly when its operands are in range, and then a
field holds the number written. -/
theorem assemblerChecksOperands : Obligations.AssemblerChecksOperands := by
  intro line
  cases line with
  | nop | encInit | encFin | decInit | lutBuild => exact assemble_of_wellFormed rfl
  | decSym m => exact assemble_of_wellFormed rfl
  | encSym m sym =>
    exact assemble_in_range decide_eq_true_iff fun h hg => ⟨_, hg, toNat_ofNat_of_lt h⟩
  | lutRfreq sym =>
    exact assemble_in_range decide_eq_true_iff fun h hg => ⟨_, hg, toNat_ofNat_of_lt h⟩
  | lutRd idx =>
    exact assemble_in_range decide_eq_true_iff fun h hg => ⟨_, hg, toNat_ofNat_of_lt h⟩
  | lutWfreq sym val =>
    exact assemble_in_range (by simp [AsmLine.wellFormed]) fun h hg =>
      ⟨_, _, hg, toNat_ofNat_of_lt h.1, toNat_ofNat_of_lt h.2⟩
  | rdreg reg =>
    cases reg with
    | name r => exact ⟨_, assemble_of_wellFormed rfl, by cases r <;> rfl⟩
    | number n =>
      exact assemble_in_range decide_eq_true_iff fun h hg => ⟨_, hg, toNat_ofNat_of_lt h⟩

/-- Settles O5: `decode` run on each word of the table. -/
theorem workedEncodings : Obligations.WorkedEncodings := by
  unfold Obligations.WorkedEncodings
  decide

end Sys2Proof
end

section
/-! One step from every state (20_memory.md, R60; 60_exceptions.md, R262 to R266; 70_reset_and_hazards.md,
R290): what a step does with each input of the host, and what a recorded fault leaves of it. -/

namespace Sys2Proof.Machine

/-! ### A step by its input (R60, R275, R290) -/

theorem step_idle {s : State} (h : s.pending = []) : step s = .next s := by
  simp only [step, takeInput, h]

theorem step_reset {s : State} {word : Option CmdWord} {rest : List HostInput}
    (h : s.pending = .reset word :: rest) : step s = .next (applyReset { s with pending := rest }) := by
  simp only [step, takeInput, h]

theorem step_command {s : State} {w : CmdWord} {stream : List Byte} {rest : List HostInput} {i : Instr}
    (h : s.pending = .command w stream :: rest) (hd : decode w = .command i) :
    step s = exec i { s with pending := rest, inPort := stream } := by
  simp only [step, takeInput, h, hd]

theorem step_illegal {s : State} {w : CmdWord} {stream : List Byte} {rest : List HostInput}
    {why : IllegalReason} (h : s.pending = .command w stream :: rest) (hd : decode w = .illegal why) :
    step s = execIllegal { s with pending := rest, inPort := stream } := by
  simp only [step, takeInput, h, hd]

/-- Settles O7: a word at the head of the port is taken off it, decoded and executed. -/
theorem stepExecutesIssuedCommand : Obligations.StepExecutesIssuedCommand :=
  fun _ _ _ _ _ => step_command

/-- Settles O8: an illegal word goes through the common check of R262, which takes its fault. -/
theorem stepFaultsIllegalWord : Obligations.StepFaultsIllegalWord := by
  intro s w stream rest why hp hd hf
  rw [step_illegal hp hd]
  exact command_raise (s := { s with pending := rest, inPort := stream }) hf .illegalCmd

/-- Settles O10: the reset event writes the reset state whatever the state before it was. -/
theorem resetEventFromEveryState : Obligations.ResetEventFromEveryState :=
  fun _ _ _ => step_reset

/-- Settles O11: with an empty queue a step takes nothing off the port. -/
theorem idleHoldsState : Obligations.IdleHoldsState := fun _ => step_idle

/-! ### A faulted core (R265, R266) -/

/-- While a fault is recorded every command but a legal `RDREG` is discarded. -/
theorem exec_faulted {i : Instr} {s : State} (hf : s.fault = true)
    (hi : ∀ reg, i = .rdreg reg → 0x0A < reg.toNat) : exec i s = .next s := by
  cases i with
  | nop => rfl
  | rdreg reg => rw [exec_rdreg_of_gt (hi reg rfl), command_faulted hf]
  | _ => exact command_faulted hf _

/-- No command touches a recorded fault. -/
theorem exec_keeps_faultCode {i : Instr} {s t : State} (hf : s.fault = true)
    (h : exec i s = .next t) : t.fault = true ∧ t.faultCode = s.faultCode := by
  by_cases hi : ∀ reg, i = .rdreg reg → 0x0A < reg.toNat
  · rw [exec_faulted hf hi] at h
    cases h
    exact ⟨hf, rfl⟩
  · push Not at hi
    obtain ⟨reg, rfl, hreg⟩ := hi
    obtain ⟨v, hv⟩ := exists_regValue hreg s
    rw [exec_rdreg_of_some hv] at h
    cases h
    exact ⟨hf, rfl⟩

/-- Settles O13: a legal `RDREG` reads the register map, which does not show the port; every other
command and every illegal word is discarded by the common check. -/
theorem faultedCoreDiscardsWords : Obligations.FaultedCoreDiscardsWords := by
  intro s w stream rest hf hp t
  refine ⟨fun reg hd hreg => ?_, fun hd => ?_⟩
  · obtain ⟨v, hv⟩ := exists_regValue hreg s
    have hvt : regValue t reg = some v := hv
    exact ⟨v, hv, (step_command hp hd).trans (exec_rdreg_of_some hvt)⟩
  · cases hw : decode w with
    | command i =>
      rw [step_command hp hw]
      exact exec_faulted hf fun reg hi => hd reg (hi ▸ hw)
    | illegal why =>
      rw [step_illegal hp hw]
      exact command_faulted (s := t) hf _

/-- Settles O14: of the cases of a step only the reset event writes `FAULT` in a faulted core. -/
theorem onlyResetLeavesFault : Obligations.OnlyResetLeavesFault := by
  intro s t hf h
  obtain ⟨-, rfl⟩ | ⟨word, rest, hp, rfl⟩ | ⟨w, stream, rest, -, ⟨i, -, hexec⟩ | ⟨why, -, hill⟩⟩ :=
    step_next h
  · exact .inr ⟨hf, rfl⟩
  · exact .inl ⟨word, rest, hp, rfl⟩
  · exact .inr (exec_keeps_faultCode (s := { s with pending := rest, inPort := stream }) hf hexec)
  · rw [execIllegal, command_faulted (s := { s with pending := rest, inPort := stream }) hf] at hill
    cases hill
    exact .inr ⟨hf, rfl⟩

end Sys2Proof.Machine
end

section
/-! Legal states (10_state.md, R37, R39; 42_range_encoder.md, R169): the state after reset is one, every
command keeps them, and from one no command stops the machine. -/

namespace Sys2Proof.Machine

/-! ### What an update keeps -/

theorem freshEncoder_inv : freshEncoder.Inv where
  ordered := by decide
  wide _ := by unfold Wide; decide
  held := by decide
  fresh _ := rfl
  finished := nofun

/-- A decoder that has no session meets the invariant of R39. -/
theorem decoder_inv_of_inactive {d : Decoder} (h : d.active = false) : d.Inv where
  lowCode ha := absurd ha (by simp [h])
  codeHigh ha := absurd ha (by simp [h])
  wide ha := absurd ha (by simp [h])

/-- The state after reset is legal for every legal `MAX_TOTAL`, whatever the host still issues. -/
theorem resetWith_inv {maxTotal : Word} (pending : List HostInput)
    (h : Config.leastMaxTotal ≤ maxTotal.toNat ∧ maxTotal.toNat ≤ Config.greatestMaxTotal) :
    ({ State.resetWith maxTotal with pending := pending } : State).Inv where
  enc := freshEncoder_inv
  dec := decoder_inv_of_inactive rfl
  lut := nofun
  noFault _ := rfl
  someFault := nofun
  maxTotal := h

/-- Settles O16: the Fresh encoder, no session, no table, no fault. -/
theorem resetStateIsLegal : Obligations.ResetStateIsLegal :=
  ⟨resetWith_inv [] (by decide), fun _ hlow hhigh => resetWith_inv [] ⟨hlow, hhigh⟩⟩

/-- Taking a word off the port keeps a state legal. -/
theorem State.Inv.taken {s : State} (h : s.Inv) (rest : List HostInput) (stream : List Byte) :
    ({ s with pending := rest, inPort := stream } : State).Inv :=
  ⟨h.enc, h.dec, h.lut, h.noFault, h.someFault, h.maxTotal⟩

theorem State.Inv.respond {s : State} (h : s.Inv) (v : Word) : (respond v s).Inv :=
  ⟨h.enc, h.dec, h.lut, h.noFault, h.someFault, h.maxTotal⟩

theorem State.Inv.takeFault {s : State} (h : s.Inv) (c : FaultCode) : (takeFault c s).Inv :=
  ⟨h.enc, h.dec, h.lut, nofun, fun _ => faultNumber_range c, h.maxTotal⟩

theorem State.Inv.withEnc {s : State} (h : s.Inv) {e : Encoder} (he : e.Inv) :
    ({ s with enc := e } : State).Inv :=
  ⟨he, h.dec, h.lut, h.noFault, h.someFault, h.maxTotal⟩

theorem State.Inv.withDec {s : State} (h : s.Inv) {d : Decoder} (hd : d.Inv) :
    ({ s with dec := d } : State).Inv :=
  ⟨h.enc, hd, h.lut, h.noFault, h.someFault, h.maxTotal⟩

theorem State.Inv.withLut {s : State} (h : s.Inv) {l : Lut}
    (hl : l.valid = true → Table.Inv l.cum) : ({ s with lut := l } : State).Inv :=
  ⟨h.enc, h.dec, hl, h.noFault, h.someFault, h.maxTotal⟩

/-! ### The encoder (R25, R37) -/

/-- What a case puts or counts leaves the held bits below the position of the count. -/
theorem encCaseBits_held {c : RenormCase} {e e' : Encoder} (h : encCaseBits c e = .ok e')
    (he : e.bitBuf.toNat < 2 ^ e.bitCnt.toNat) : e'.bitBuf.toNat < 2 ^ e'.bitCnt.toNat := by
  cases c with
  | lower | upper => cases h; exact emit_held he
  | middle => rw [(addPending_ok h).1]; exact he
  | stop => cases h; exact he

/-- A symbol of frequency at least 1 leaves an accepting encoder legal: every iteration keeps the bounds
in order, and the loop stops on a wide interval. -/
theorem encodeSymbol_inv {cl f total : Nat} {e t : Encoder} (hi : e.Inv)
    (hr : total ≤ e.high.toNat - e.low.toNat + 1) (hf : 1 ≤ f) (ht : cl + f ≤ total)
    (h : encodeSymbol cl f total e = .ok t) : t.Inv := by
  obtain ⟨b, u, hn, hu, rfl⟩ := encodeSymbol_ok h
  obtain ⟨b', hn', -, hb, -⟩ := narrow_ok hi.ordered hr hf ht
  obtain rfl : b' = b := Except.ok.inj (hn'.symm.trans hn)
  obtain ⟨⟨ho, hheld⟩, hstop⟩ := encRenorm_keeps
    (P := fun e => e.low.toNat ≤ e.high.toNat ∧ e.bitBuf.toNat < 2 ^ e.bitCnt.toNat)
    (fun e e' hs ⟨ho, hheld⟩ hc => ⟨encStep_ordered hs ho hc, (encCaseBits_held hc hheld :)⟩)
    Config.renormFuel (e := { e with low := b'.1, high := b'.2 }) ⟨hb, hi.held⟩ hu
  exact ⟨ho, fun _ => wide_of_stop hstop, hheld, nofun, nofun⟩

/-- `ENC_FIN` leaves the bounds, and nothing pending or held. -/
theorem finishEncoder_inv {e t : Encoder} (hi : e.Inv) (h : finishEncoder e = .ok t) : t.Inv := by
  obtain ⟨rfl, -⟩ := finishEncoder_ok h
  refine ⟨?_, nofun, ?_, nofun, fun _ => ⟨?_, ?_⟩⟩
  · simpa using hi.ordered
  · have hbuf := sinkFlush_held
      (emit_held (b := quarter ≤ e.low.toNat) (e := { e with pending := e.pending + 1 }) hi.held)
    dsimp only
    rw [hbuf]
    exact Nat.two_pow_pos _
  · simp
  · simp

/-! ### The decoder (R39) -/

/-- A session starts with the full interval. -/
theorem initDecoder_inv (input : List Byte) (d : Decoder) : (initDecoder input d).Inv where
  lowCode _ := Nat.zero_le _
  codeHigh _ := by
    have hlt := (initDecoder input d).code.isLt
    rw [initDecoder_high, show (0xFFFFFFFF : Word).toNat = 4294967295 by decide]
    omega
  wide _ := by rw [initDecoder_low, initDecoder_high]; unfold Wide; decide

/-- The decoder of a legal state with a session has its code inside the bounds. -/
theorem Decoder.Inv.codeInside {d : Decoder} (h : d.Inv) (ha : d.active = true) : CodeInside d :=
  ⟨h.lowCode ha, h.codeHigh ha⟩

/-! ### Every command keeps a state legal -/

theorem encSymRule_inv {m : TableSel} {sym : Byte} {s t : State} (hi : s.Inv)
    (h : encSymRule m sym s = .ok t) : t.Inv := by
  obtain ⟨hp, hu, f, e, hf, hf0, he, rfl⟩ := encSymRule_ok h
  have hti := selectedTable_inv hi hu
  obtain rfl := Except.ok.inj ((symFreq_ok hti sym).symm.trans hf)
  have hlow := hti.cumLow_le sym
  have hnext := hti.cumNext_le sym
  exact hi.withEnc (encodeSymbol_inv hi.enc (encoder_range hi.enc hp (hu.2.2.trans hi.maxTotal.2))
    (by omega) (by omega) he)

theorem decSymRule_inv {m : TableSel} {s t : State} (hi : s.Inv) (h : decSymRule m s = .ok t) :
    t.Inv := by
  obtain ⟨ha, hu, r, hr, rfl⟩ := decSymRule_ok h
  obtain ⟨-, sym, d, -, -, hd, -, -, hcode, hwide, -⟩ := decodeSymbol_ok (selectedTable_inv hi hu)
    hu.2.1 (hu.2.2.trans hi.maxTotal.2) (hi.dec.codeInside ha) (hi.dec.wide ha)
  obtain rfl := Except.ok.inj (hd.symm.trans hr)
  exact (hi.withDec ⟨fun _ => hcode.1, fun _ => hcode.2, fun _ => hwide⟩).respond _

theorem lutBuildRule_inv {s t : State} (hi : s.Inv) (h : lutBuildRule s = .ok t) : t.Inv := by
  rw [lutBuildRule_cases] at h
  split at h
  case isTrue hsum =>
    cases h
    exact hi.withLut fun _ => buildTable_inv hsum
  case isFalse => cases h

/-- A discarded word and fault entry keep a state legal, so a command does if its own rule does. -/
theorem command_inv {s t : State} {body : Except Abort State} (hi : s.Inv)
    (hbody : ∀ {u}, body = .ok u → u.Inv) (h : command s body = .next t) : t.Inv := by
  obtain ⟨-, rfl⟩ | ⟨-, hok⟩ | ⟨-, c, -, rfl⟩ := command_next h
  · exact hi
  · exact hbody hok
  · exact hi.takeFault c

theorem exec_inv {i : Instr} {s t : State} (hi : s.Inv) (h : exec i s = .next t) : t.Inv := by
  cases i with
  | nop => cases h; exact hi
  | encInit => exact command_inv hi (fun hu => by cases hu; exact hi.withEnc freshEncoder_inv) h
  | encSym m sym => exact command_inv hi (encSymRule_inv hi) h
  | encFin =>
    refine command_inv hi (fun hu => ?_) h
    obtain ⟨-, e, he, rfl⟩ := encFinRule_ok hu
    exact hi.withEnc (finishEncoder_inv hi.enc he)
  | decInit => exact command_inv hi (fun hu => by cases hu; exact hi.withDec (initDecoder_inv _ _)) h
  | decSym m => exact command_inv hi (decSymRule_inv hi) h
  | lutWfreq sym val => exact command_inv hi (fun hu => by cases hu; exact hi.withLut hi.lut) h
  | lutRfreq sym => exact command_inv hi (fun hu => by cases hu; exact hi.respond _) h
  | lutBuild => exact command_inv hi (lutBuildRule_inv hi) h
  | lutRd idx =>
    refine command_inv hi (fun hu => ?_) h
    obtain ⟨v, rfl⟩ := lutRdRule_ok hu
    exact hi.respond v
  | rdreg reg =>
    cases hreg : regValue s reg with
    | some v =>
      rw [exec_rdreg_of_some hreg] at h
      cases h
      exact hi.respond v
    | none =>
      simp only [exec, execRdreg, hreg] at h
      exact command_inv hi (fun hu => by cases hu) h

/-- Settles O17: the reset state is legal, and every command and every illegal word keeps a legal state
legal. -/
theorem stepKeepsStateLegal : Obligations.StepKeepsStateLegal := by
  intro s t hi h
  obtain ⟨-, rfl⟩ | ⟨word, rest, -, rfl⟩ | ⟨w, stream, rest, -, ⟨i, -, hexec⟩ | ⟨why, -, hill⟩⟩ :=
    step_next h
  · exact hi
  · exact resetWith_inv rest hi.maxTotal
  · exact exec_inv (hi.taken rest stream) hexec
  · exact command_inv (hi.taken rest stream) (fun hu => by cases hu) hill

/-! ### From a legal state the core goes on (R169) -/

/-- A command whose own rule completes or raises a fault answers a next state. -/
theorem command_ends {s : State} {body : Except Abort State}
    (h : (∃ t, body = .ok t) ∨ ∃ c, body = .error (.raise c)) : ∃ t, command s body = .next t := by
  cases hf : s.fault with
  | true => exact ⟨s, command_faulted hf body⟩
  | false =>
    obtain ⟨t, rfl⟩ | ⟨c, rfl⟩ := h
    · exact ⟨t, command_ok hf t⟩
    · exact ⟨_, command_raise hf c⟩

theorem exec_ends {s : State} (hi : s.Inv) (i : Instr) : ∃ t, exec i s = .next t := by
  cases i with
  | nop => exact ⟨s, rfl⟩
  | encInit | decInit | lutWfreq | lutRfreq => exact command_ends (.inl ⟨_, rfl⟩)
  | encSym m sym => exact command_ends (encSymRule_ends hi)
  | encFin => exact command_ends (encFinRule_ends s)
  | decSym m => exact command_ends (decSymRule_ends hi)
  | lutBuild =>
    apply command_ends
    rw [lutBuildRule_cases]
    split
    · exact .inl ⟨_, rfl⟩
    · exact .inr ⟨_, rfl⟩
  | lutRd idx =>
    apply command_ends
    rw [lutRdRule_cases]
    split_ifs
    · exact .inl ⟨_, rfl⟩
    · exact .inr ⟨_, rfl⟩
    · exact .inr ⟨_, rfl⟩
  | rdreg reg =>
    cases hreg : regValue s reg with
    | some v => exact ⟨_, exec_rdreg_of_some hreg⟩
    | none =>
      simp only [exec, execRdreg, hreg]
      exact command_ends (.inr ⟨_, rfl⟩)

/-- Settles O18: the own rule of every command completes or raises a fault on a legal state. -/
theorem legalStateNeverStops : Obligations.LegalStateNeverStops := by
  intro s hi
  cases hp : s.pending with
  | nil => exact ⟨s, step_idle hp⟩
  | cons input rest =>
    cases input with
    | reset word => exact ⟨_, step_reset hp⟩
    | command w stream =>
      cases hd : decode w with
      | command i => rw [step_command hp hd]; exact exec_ends (hi.taken rest stream) i
      | illegal why => rw [step_illegal hp hd]; exact command_ends (.inr ⟨_, rfl⟩)

end Sys2Proof.Machine
end

section
/-! Frames over all commands (70_reset_and_hazards.md, R295; 20_memory.md, R55, R57, R59): what each
command may change, what it appends, and what an unbuilt table cannot show. -/

namespace Sys2Proof.Machine

/-! ### Each command changes its own unit (R22 to R34) -/

/-- A command that ends with no fault recorded has completed its own rule. -/
theorem command_completed {s t : State} {body : Except Abort State} (h : command s body = .next t)
    (ht : t.fault = false) : s.fault = false ∧ body = .ok t := by
  obtain ⟨hs, rfl⟩ | ⟨hs, hok⟩ | ⟨-, c, -, rfl⟩ := command_next h
  · rw [hs] at ht; cases ht
  · exact ⟨hs, hok⟩
  · cases ht

/-- Settles O19: a completed rule writes its own unit by the lemma that says all it can do. -/
theorem commandsChangeOnlyTheirUnit : Obligations.CommandsChangeOnlyTheirUnit := by
  intro i s t h ht
  cases i with
  | nop => cases h; rfl
  | encInit | decInit | lutWfreq | lutRfreq =>
    obtain ⟨-, hok⟩ := command_completed h ht
    cases hok
    rfl
  | encSym m sym =>
    obtain ⟨-, hok⟩ := command_completed h ht
    obtain ⟨-, -, f, e, -, -, -, rfl⟩ := encSymRule_ok hok
    rfl
  | encFin =>
    obtain ⟨-, hok⟩ := command_completed h ht
    obtain ⟨-, e, -, rfl⟩ := encFinRule_ok hok
    rfl
  | decSym m =>
    obtain ⟨-, hok⟩ := command_completed h ht
    obtain ⟨-, -, r, -, rfl⟩ := decSymRule_ok hok
    rfl
  | lutBuild =>
    obtain ⟨-, hok⟩ := command_completed h ht
    obtain rfl := lutBuildRule_ok hok
    rfl
  | lutRd idx =>
    obtain ⟨-, hok⟩ := command_completed h ht
    obtain ⟨v, rfl⟩ := lutRdRule_ok hok
    rfl
  | rdreg reg =>
    cases hreg : regValue s reg with
    | some v =>
      rw [exec_rdreg_of_some hreg] at h
      cases h
      rfl
    | none =>
      simp only [exec, execRdreg, hreg] at h
      cases (command_completed h ht).2

/-! ### `OUT` is append-only (R55) -/

/-- A discarded word and fault entry leave `OUT` alone, so a command extends it if its own rule does. -/
theorem command_out {s t : State} {body : Except Abort State}
    (hbody : ∀ {u}, body = .ok u → s.enc.out <+: u.enc.out) (h : command s body = .next t) :
    s.enc.out <+: t.enc.out := by
  obtain ⟨-, rfl⟩ | ⟨-, hok⟩ | ⟨-, c, -, rfl⟩ := command_next h
  · exact List.prefix_rfl
  · exact hbody hok
  · exact List.prefix_rfl

theorem encCaseBits_out {c : RenormCase} {e e' : Encoder} (h : encCaseBits c e = .ok e') :
    e.out <+: e'.out := by
  cases c with
  | lower | upper => cases h; exact emit_out _ _
  | middle => rw [(addPending_ok h).1]
  | stop => cases h; exact List.prefix_rfl

theorem encodeSymbol_out {cl f total : Nat} {e t : Encoder} (h : encodeSymbol cl f total e = .ok t) :
    e.out <+: t.out := by
  obtain ⟨b, u, -, hu, rfl⟩ := encodeSymbol_ok h
  exact (encRenorm_keeps (P := fun x => e.out <+: x.out)
    (fun x x' _ hx hc => (hx.trans (encCaseBits_out hc) :)) Config.renormFuel
    (e := { e with low := b.1, high := b.2 }) List.prefix_rfl hu).1

theorem finishEncoder_out {e t : Encoder} (h : finishEncoder e = .ok t) : e.out <+: t.out := by
  obtain ⟨rfl, -⟩ := finishEncoder_ok h
  exact (emit_out _ { e with pending := e.pending + 1 }).trans (sinkFlush_out _)

/-- Settles O20: the sink only appends, and of the other commands `ENC_INIT` alone writes the encoder. -/
theorem outIsAppendOnly : Obligations.OutIsAppendOnly := by
  intro i s t h
  cases i with
  | nop => cases h; exact .inr List.prefix_rfl
  | encInit =>
    obtain ⟨-, rfl⟩ | ⟨hs, hok⟩ | ⟨-, c, hc, -⟩ := command_next h
    · exact .inr List.prefix_rfl
    · cases hok; exact .inl ⟨rfl, hs, rfl⟩
    · cases hc
  | decInit | lutWfreq | lutRfreq =>
    exact .inr (command_out (fun hu => by cases hu; exact List.prefix_rfl) h)
  | encSym m sym =>
    refine .inr (command_out (fun hu => ?_) h)
    obtain ⟨-, -, f, e, -, -, he, rfl⟩ := encSymRule_ok hu
    exact encodeSymbol_out he
  | encFin =>
    refine .inr (command_out (fun hu => ?_) h)
    obtain ⟨-, e, he, rfl⟩ := encFinRule_ok hu
    exact finishEncoder_out he
  | decSym m =>
    refine .inr (command_out (fun hu => ?_) h)
    obtain ⟨-, -, r, -, rfl⟩ := decSymRule_ok hu
    exact List.prefix_rfl
  | lutBuild =>
    refine .inr (command_out (fun hu => ?_) h)
    rw [lutBuildRule_ok hu]
  | lutRd idx =>
    refine .inr (command_out (fun hu => ?_) h)
    obtain ⟨v, rfl⟩ := lutRdRule_ok hu
    exact List.prefix_rfl
  | rdreg reg =>
    cases hreg : regValue s reg with
    | some v =>
      rw [exec_rdreg_of_some hreg] at h
      cases h
      exact .inr List.prefix_rfl
    | none =>
      simp only [exec, execRdreg, hreg] at h
      exact .inr (command_out (fun hu => by cases hu) h)

/-! ### Responses (R57) -/

/-- A command whose own rule does not respond leaves `RSP` as it was. -/
theorem command_keeps_rsp {s t : State} {body : Except Abort State}
    (hbody : ∀ {u}, body = .ok u → u.rsp = s.rsp) (h : command s body = .next t) : t.rsp = s.rsp := by
  obtain ⟨-, rfl⟩ | ⟨-, hok⟩ | ⟨-, c, -, rfl⟩ := command_next h
  · rfl
  · exact hbody hok
  · rfl

/-- A command whose own rule responds once does so when it completes, and not otherwise. -/
theorem command_responds {s t : State} {body : Except Abort State}
    (hbody : ∀ {u}, body = .ok u → u.fault = s.fault ∧ ∃ v, u.rsp = s.rsp ++ [v])
    (h : command s body = .next t) :
    if t.fault = false then ∃ v, t.rsp = s.rsp ++ [v] else t.rsp = s.rsp := by
  obtain ⟨hs, rfl⟩ | ⟨hs, hok⟩ | ⟨-, c, -, rfl⟩ := command_next h
  · rw [if_neg (by simp [hs])]
  · obtain ⟨hfault, hrsp⟩ := hbody hok
    rwa [if_pos (hfault.trans hs)]
  · rw [if_neg (by simp)]; rfl

/-- Settles O21: four rules respond, each by one `Respond`. -/
theorem responsesAreOnePerCommand : Obligations.ResponsesAreOnePerCommand := by
  intro i s t h
  cases i with
  | nop => cases h; rfl
  | encInit | decInit | lutWfreq => exact command_keeps_rsp (fun hu => by cases hu; rfl) h
  | encSym m sym =>
    refine command_keeps_rsp (fun hu => ?_) h
    obtain ⟨-, -, f, e, -, -, -, rfl⟩ := encSymRule_ok hu
    rfl
  | encFin =>
    refine command_keeps_rsp (fun hu => ?_) h
    obtain ⟨-, e, -, rfl⟩ := encFinRule_ok hu
    rfl
  | lutBuild => exact command_keeps_rsp (fun hu => by rw [lutBuildRule_ok hu]) h
  | decSym m =>
    refine command_responds (fun hu => ⟨decSymRule_keeps_fault hu, ?_⟩) h
    obtain ⟨-, -, r, -, rfl⟩ := decSymRule_ok hu
    exact ⟨_, rfl⟩
  | lutRfreq sym => exact command_responds (fun hu => by cases hu; exact ⟨rfl, _, rfl⟩) h
  | lutRd idx =>
    refine command_responds (fun hu => ⟨lutRdRule_keeps_fault hu, ?_⟩) h
    obtain ⟨v, rfl⟩ := lutRdRule_ok hu
    exact ⟨v, rfl⟩
  | rdreg reg =>
    by_cases hreg : reg.toNat ≤ 0x0A
    · obtain ⟨v, hv⟩ := exists_regValue hreg s
      rw [exec_rdreg_of_some hv] at h
      cases h
      exact (if_pos hreg).mpr ⟨v, rfl⟩
    · rw [exec_rdreg_of_gt (Nat.not_le.mp hreg)] at h
      exact (if_neg hreg).mpr (command_keeps_rsp (fun hu => by cases hu) h)

/-! ### Repeated reads (R59) -/

/-- The word a reading command responds with. -/
def readWord (s : State) : Instr → Option Word
  | .rdreg reg => regValue s reg
  | .lutRd idx => s.lut.cum[idx.toNat]?
  | .lutRfreq sym => some (readFreq s.lut sym)
  | _ => none

/-- A response shows in no register and in no table. -/
theorem readWord_respond (s : State) (v : Word) (i : Instr) :
    readWord (respond v s) i = readWord s i := by
  cases i <;> rfl

/-- A command that responds has completed its own rule. -/
theorem command_of_rsp {s t : State} {body : Except Abort State} {v : Word}
    (h : command s body = .next t) (hv : t.rsp = s.rsp ++ [v]) : body = .ok t := by
  obtain ⟨-, rfl⟩ | ⟨-, hok⟩ | ⟨-, c, -, rfl⟩ := command_next h
  · simp at hv
  · exact hok
  · simp at hv

/-- A reading command that responds gives the word read, and changes nothing else. -/
theorem read_responds {i : Instr} {s t : State} {v : Word}
    (hi : (∃ reg, i = .rdreg reg) ∨ (∃ idx, i = .lutRd idx) ∨ ∃ sym, i = .lutRfreq sym)
    (h : exec i s = .next t) (hv : t.rsp = s.rsp ++ [v]) :
    t = respond v s ∧ readWord s i = some v := by
  have key {w : Word} (ht : t = respond w s) (hw : readWord s i = some w) :
      t = respond v s ∧ readWord s i = some v := by
    subst ht
    obtain rfl : w = v := by simpa using hv
    exact ⟨rfl, hw⟩
  obtain ⟨reg, rfl⟩ | ⟨idx, rfl⟩ | ⟨sym, rfl⟩ := hi
  · cases hreg : regValue s reg with
    | some w =>
      rw [exec_rdreg_of_some hreg] at h
      cases h
      exact key rfl hreg
    | none =>
      simp only [exec, execRdreg, hreg] at h
      cases command_of_rsp h hv
  · have hok : lutRdRule idx s = .ok t := command_of_rsp h hv
    rw [lutRdRule_cases] at hok
    split_ifs at hok with hidx hvalid
    exact key (Except.ok.inj hok).symm (Vector.getElem?_eq_getElem hidx)
  · have hok : Except.ok (respond (readFreq s.lut sym) s) = Except.ok t := command_of_rsp h hv
    exact key (Except.ok.inj hok).symm rfl

/-- Settles O22: the first response changes nothing that the second read shows. -/
theorem repeatedReadGivesSameWord : Obligations.RepeatedReadGivesSameWord := by
  intro i s t u v w hi hst hv htu hw
  obtain ⟨rfl, hreadv⟩ := read_responds hi hst hv
  obtain ⟨-, hreadw⟩ := read_responds hi htu hw
  rw [readWord_respond, hreadv] at hreadw
  exact Option.some.inj hreadw

/-! ### An unbuilt table is never read (R29) -/

/-- The state with other entries in a table that is not built. -/
def withUnbuilt (cum : Table) (t : State) : State :=
  { t with lut := { t.lut with cum := if t.lut.valid then t.lut.cum else cum } }

/-- A change of the next state of an outcome. -/
def mapNext (f : State → State) :
    Host.Outcome State Fault Refusal → Host.Outcome State Fault Refusal
  | .next t => .next (f t)
  | .fault r => .fault r
  | .refused r => .refused r

theorem withUnbuilt_eq {s : State} (h : s.lut.valid = false) (cum : Table) :
    withUnbuilt cum s = { s with lut := { s.lut with cum := cum } } := by
  simp [withUnbuilt, h]

/-- A command does the same with other entries in the table if its own rule does. -/
theorem command_withUnbuilt {s : State} {cum : Table} {body body' : Except Abort State}
    (hbody : body' = body >>= fun t => .ok (withUnbuilt cum t)) :
    command (withUnbuilt cum s) body' = mapNext (withUnbuilt cum) (command s body) := by
  have hfault : (withUnbuilt cum s).fault = s.fault := rfl
  subst hbody
  cases hf : s.fault with
  | true => rw [command_faulted hf, command_faulted (hfault.trans hf)]; rfl
  | false =>
    match body with
    | .ok t => rw [ok_bind, command_ok hf, command_ok (hfault.trans hf)]; rfl
    | .error (.raise c) => rw [error_bind, command_raise hf, command_raise (hfault.trans hf)]; rfl
    | .error (.stuck f) => simp [command, hf, hfault, conclude, mapNext]

/-- `Lookup(M)` refuses an unbuilt table before it looks at an entry (R118). -/
theorem lookup_withUnbuilt {s : State} (h : s.lut.valid = false) (cum : Table) (m : TableSel) :
    lookup (withUnbuilt cum s) m = lookup s m := by
  rw [withUnbuilt_eq h]
  cases m with
  | uniform => rfl
  | built => simp [lookup, selectTable, h]

theorem encSymRule_withUnbuilt {s : State} (h : s.lut.valid = false) (cum : Table) (m : TableSel)
    (sym : Byte) : encSymRule m sym (withUnbuilt cum s) =
      encSymRule m sym s >>= fun t => .ok (withUnbuilt cum t) := by
  unfold encSymRule
  rw [lookup_withUnbuilt h]
  simp only [bind_assoc, pure_bind]
  rfl

theorem decSymRule_withUnbuilt {s : State} (h : s.lut.valid = false) (cum : Table) (m : TableSel) :
    decSymRule m (withUnbuilt cum s) = decSymRule m s >>= fun t => .ok (withUnbuilt cum t) := by
  unfold decSymRule
  rw [lookup_withUnbuilt h]
  simp only [bind_assoc, pure_bind]
  rfl

theorem encFinRule_withUnbuilt (s : State) (cum : Table) :
    encFinRule (withUnbuilt cum s) = encFinRule s >>= fun t => .ok (withUnbuilt cum t) := by
  unfold encFinRule
  simp only [bind_assoc, pure_bind]
  rfl

theorem lutBuildRule_withUnbuilt (s : State) (cum : Table) :
    lutBuildRule (withUnbuilt cum s) = lutBuildRule s >>= fun t => .ok (withUnbuilt cum t) := by
  have hfreq : (withUnbuilt cum s).lut.freq = s.lut.freq := rfl
  rw [lutBuildRule_cases, lutBuildRule_cases, hfreq]
  split <;> rfl

theorem lutRdRule_withUnbuilt {s : State} (h : s.lut.valid = false) (cum : Table)
    (idx : BitVec 9) : lutRdRule idx (withUnbuilt cum s) =
      lutRdRule idx s >>= fun t => .ok (withUnbuilt cum t) := by
  have hvalid : (withUnbuilt cum s).lut.valid = s.lut.valid := rfl
  rw [lutRdRule_cases, lutRdRule_cases, hvalid, h]
  split <;> rfl

/-- No register shows the table (R38). -/
theorem exec_rdreg_withUnbuilt (s : State) (cum : Table) (reg : Byte) :
    exec (.rdreg reg) (withUnbuilt cum s) = mapNext (withUnbuilt cum) (exec (.rdreg reg) s) := by
  have hreg : regValue (withUnbuilt cum s) reg = regValue s reg := rfl
  simp only [exec, execRdreg, hreg]
  cases regValue s reg with
  | some v => rfl
  | none => exact command_withUnbuilt rfl

theorem exec_withUnbuilt {s : State} (h : s.lut.valid = false) (cum : Table) (i : Instr) :
    exec i (withUnbuilt cum s) = mapNext (withUnbuilt cum) (exec i s) := by
  cases i with
  | nop => rfl
  | encInit | decInit | lutWfreq | lutRfreq => exact command_withUnbuilt rfl
  | encSym m sym => exact command_withUnbuilt (encSymRule_withUnbuilt h cum m sym)
  | encFin => exact command_withUnbuilt (encFinRule_withUnbuilt s cum)
  | decSym m => exact command_withUnbuilt (decSymRule_withUnbuilt h cum m)
  | lutBuild => exact command_withUnbuilt (lutBuildRule_withUnbuilt s cum)
  | lutRd idx => exact command_withUnbuilt (lutRdRule_withUnbuilt h cum idx)
  | rdreg reg => exact exec_rdreg_withUnbuilt s cum reg

/-- Settles O23: `Lookup(M)` and `LUT_RD` refuse an unbuilt table before they look at an entry, and no
other rule reads one. -/
theorem unbuiltTableIsNeverRead : Obligations.UnbuiltTableIsNeverRead := by
  intro i s cum h
  rw [← withUnbuilt_eq h, exec_withUnbuilt h]
  cases exec i s <;> rfl

end Sys2Proof.Machine
end

section
/-! The faults of the symbol commands and of `ENC_FIN` in their order (60_exceptions.md, R263). -/

namespace Sys2Proof.Machine

/-- A command whose own rule raises a fault takes it. -/
theorem command_of_raise {s : State} {body : Except Abort State} {c : FaultCode}
    (hf : s.fault = false) (h : body = .error (.raise c)) :
    command s body = .next (takeFault c s) := by
  rw [h, command_raise hf]

/-- A check that comes first: `ENC_SYM` of a finished session (R161). -/
theorem encSymRule_finished {s : State} (h : s.enc.phase = .finished) (m : TableSel) (sym : Byte) :
    encSymRule m sym s = .error (.raise .encFinished) := by
  unfold encSymRule
  rw [require_bind, if_neg (not_not_intro h)]

/-- `ENC_SYM` passes on the fault of `Lookup(M)` (R118). -/
theorem encSymRule_of_lookup_error {s : State} {m : TableSel} {sym : Byte} {a : Abort}
    (hp : s.enc.phase ≠ .finished) (h : lookup s m = .error a) : encSymRule m sym s = .error a := by
  unfold encSymRule
  rw [require_bind, if_pos hp, h, error_bind]

/-- A symbol of frequency 0 of a usable table (R161). -/
theorem encSymRule_zeroFreq {s : State} {m : TableSel} {sym : Byte} (hp : s.enc.phase ≠ .finished)
    (hu : Usable s m) (h : cumNext (selectedTable s m) sym = cumLow (selectedTable s m) sym) :
    encSymRule m sym s = .error (.raise .zeroFreq) := by
  have hfreq : symFreq (selectedTable s m) sym = .ok 0 := by
    unfold symFreq; rw [if_pos (by omega), h, Nat.sub_self]
  unfold encSymRule
  rw [require_bind, if_pos hp, lookup_eq_ok.mpr ⟨hu, rfl⟩, ok_bind, hfreq, ok_bind, require_bind,
    if_neg (not_not_intro rfl)]

/-- Settles O37: the checks of `ENC_SYM` one after the other. -/
theorem encSymFaultsInOrder : Obligations.EncSymFaultsInOrder := by
  intro s m sym hf
  have hlookup := lookup_cases s m
  split_ifs with hp hv ht
  · exact command_of_raise hf (encSymRule_finished hp m sym)
  · rw [if_pos hv] at hlookup
    exact command_of_raise hf (encSymRule_of_lookup_error hp hlookup)
  · rw [if_neg hv, if_pos ht] at hlookup
    exact command_of_raise hf (encSymRule_of_lookup_error hp hlookup)
  · rw [if_neg hv, if_neg ht] at hlookup
    exact fun hz => command_of_raise hf (encSymRule_zeroFreq hp (lookup_eq_ok.mp hlookup).1 hz)

/-- Settles O43: the checks of `DEC_SYM` one after the other. -/
theorem decSymFaultsInOrder : Obligations.DecSymFaultsInOrder := by
  intro s m hf
  have hlookup := lookup_cases s m
  have pass {a : Abort} (ha : ¬ s.dec.active = false) (h : lookup s m = .error a) :
      decSymRule m s = .error a := by
    unfold decSymRule
    rw [eq_true_of_ne_false ha, require_true, ok_bind, h, error_bind]
  split_ifs with ha hv
  · refine command_of_raise (c := .decNotActive) hf ?_
    unfold decSymRule
    rw [ha, require_false, error_bind]
  · rw [if_pos hv] at hlookup
    exact command_of_raise hf (pass ha hlookup)
  · intro ht
    rw [if_neg hv, if_pos ht] at hlookup
    exact command_of_raise hf (pass ha hlookup)

/-- Settles O41: the phase is checked first, then the counter. -/
theorem encFinFaultsInOrder : Obligations.EncFinFaultsInOrder := by
  intro s hf
  split_ifs with hp
  · refine command_of_raise (c := .encFinished) hf ?_
    unfold encFinRule
    rw [require_bind, if_neg (not_not_intro hp)]
  · intro hfull
    refine command_of_raise (c := .pendingOverflow) hf ?_
    unfold encFinRule finishEncoder
    rw [require_bind, if_pos hp, addPending_full hfull]
    rfl

end Sys2Proof.Machine
end

section
/-! Loading a table (30_encoding.md, R90; 40_frequency_lut.md, R110, R112, R117): a run of `LUT_WFREQ`,
then `LUT_BUILD`; and the symbol search as the inverse of the table (R204). -/

namespace Sys2Proof.Machine

/-! ### Runs of commands (R60) -/

theorem runCommands_cons {i : Instr} {is : List Instr} {s t : State} (h : exec i s = .next t) :
    runCommands (i :: is) s = runCommands is t := by
  simp only [runCommands, h]

theorem runCommands_singleton (i : Instr) (s : State) : runCommands [i] s = exec i s := by
  cases h : exec i s <;> simp only [runCommands, h]

/-- A run that goes through its first part goes on with the second. -/
theorem runCommands_append {is js : List Instr} {s t : State} (h : runCommands is s = .next t) :
    runCommands (is ++ js) s = runCommands js t := by
  induction is generalizing s with
  | nil => cases h; rfl
  | cons i is ih =>
    cases hi : exec i s with
    | next u =>
      rw [runCommands_cons hi] at h
      rw [List.cons_append, runCommands_cons hi, ih h]
    | fault f => simp only [runCommands, hi] at h; cases h
    | refused r => simp only [runCommands, hi] at h; cases h

/-! ### Writing the staging array (R110) -/

/-- The tables after a list of frequencies is written from entry `k` on. -/
def writeFrom (k : Nat) : List Word → Lut → Lut
  | [], l => l
  | f :: fs, l => writeFrom (k + 1) fs (writeFreq (BitVec.ofNat 8 k) f l)

theorem runCommands_writeFreqs (k : Nat) (fs : List Word) {s : State} (hf : s.fault = false) :
    runCommands (writeFreqs k fs) s = .next { s with lut := writeFrom k fs s.lut } := by
  induction fs generalizing k s with
  | nil => rfl
  | cons f fs ih =>
    rw [writeFreqs, runCommands_cons (exec_lutWfreq hf _ _),
      ih (k + 1) (s := { s with lut := writeFreq (BitVec.ofNat 8 k) f s.lut }) hf]
    rfl

/-- One write of `FREQ` by the number of its entry. -/
theorem writeFreq_getElem {k : Nat} (hk : k < 256) (v : Word) (l : Lut) (i : Nat) (hi : i < 256) :
    (writeFreq (BitVec.ofNat 8 k) v l).freq[i] = if i = k then v else l.freq[i] := by
  have hnum : (BitVec.ofNat 8 k).toNat = k := toNat_ofNat_of_lt hk
  simp only [writeFreq, hnum, Vector.getElem_set, eq_comm]

theorem writeFrom_getElem_below (k : Nat) (fs : List Word) (h : k + fs.length ≤ 256) (l : Lut)
    (i : Nat) (hi : i < k) : (writeFrom k fs l).freq[i] = l.freq[i] := by
  induction fs generalizing k l with
  | nil => rfl
  | cons f fs ih =>
    rw [List.length_cons] at h
    rw [writeFrom, ih (k + 1) (by omega) _ (by omega), writeFreq_getElem (by omega), if_neg (by omega)]

theorem writeFrom_getElem (k : Nat) (fs : List Word) (h : k + fs.length ≤ 256) (l : Lut)
    (j : Nat) (hj : j < fs.length) : (writeFrom k fs l).freq[k + j] = fs[j] := by
  induction fs generalizing k l j with
  | nil => cases hj
  | cons f fs ih =>
    rw [List.length_cons] at h hj
    rw [writeFrom]
    cases j with
    | zero =>
      rw [writeFrom_getElem_below (k + 1) fs (by omega) _ _ (by omega), writeFreq_getElem (by omega),
        if_pos (Nat.add_zero k)]
      rfl
    | succ j =>
      simp only [← ih (k + 1) (by omega) (writeFreq (BitVec.ofNat 8 k) f l) j (by omega),
        List.getElem_cons_succ, Nat.add_assoc, Nat.add_comm 1]

/-- Writing all 256 entries replaces the staging array. -/
theorem writeFrom_zero (freqs : Vector Word 256) (l : Lut) :
    writeFrom 0 freqs.toList l = { l with freq := freqs } := by
  have hcum (k : Nat) (fs : List Word) (l : Lut) :
      (writeFrom k fs l).cum = l.cum ∧ (writeFrom k fs l).valid = l.valid := by
    induction fs generalizing k l with
    | nil => exact ⟨rfl, rfl⟩
    | cons f fs ih => exact ih _ _
  have hfreq : (writeFrom 0 freqs.toList l).freq = freqs := by
    refine Vector.ext fun i hi => ?_
    have hat := writeFrom_getElem 0 freqs.toList (by simp) l i (by simpa using hi)
    simpa only [Nat.zero_add, Vector.getElem_toList] using hat
  obtain ⟨hc, hv⟩ := hcum 0 freqs.toList l
  calc
    writeFrom 0 freqs.toList l = ⟨_, _, _⟩ := rfl
    _ = { l with freq := freqs } := by rw [hfreq, hc, hv]

/-! ### Loading (R112, R293) -/

/-- The tables after loading the frequencies. -/
def loadedLut (freqs : Vector Word 256) : Lut where
  freq := freqs
  cum := buildTable freqs
  valid := true

/-- Loading a table whose total fits writes the tables, whatever they held. -/
theorem runCommands_loadTable {s : State} (freqs : Vector Word 256) (hf : s.fault = false)
    (hsum : (freqs.toList.map BitVec.toNat).sum ≤ top) :
    runCommands (loadTable freqs.toList) s = .next { s with lut := loadedLut freqs } := by
  rw [loadTable, runCommands_append (runCommands_writeFreqs 0 freqs.toList hf), writeFrom_zero,
    runCommands_singleton]
  exact exec_lutBuild_of_fit (s := { s with lut := { s.lut with freq := freqs } }) hf
    ((buildSums_fit_iff freqs).mpr hsum)

/-- The frequencies of `lut.uniform` (R90). -/
def onesFreq : Vector Word 256 := Vector.replicate 256 1

theorem onesFreq_toList : onesFreq.toList = List.replicate 256 1 := Vector.toList_replicate

theorem onesFreq_sum : (onesFreq.toList.map BitVec.toNat).sum ≤ top := by
  rw [onesFreq_toList, List.map_replicate, List.sum_replicate]
  decide

/-- 256 frequencies of 1 build the uniform table (R117). -/
theorem buildTable_onesFreq : buildTable onesFreq = ucum := by
  have hfit := (buildSums_fit_iff onesFreq).mpr onesFreq_sum
  apply Vector.ext
  intro i hi
  apply BitVec.eq_of_toNat_eq
  rw [buildTable_getElem hfit i hi, ucum_getElem i hi, buildSums_getElem, onesFreq_toList,
    List.take_replicate, List.map_replicate, List.sum_replicate]
  change min i 256 * 1 = i
  omega

/-- Settles O30: a run of `LUT_WFREQ` replaces the staging array, and `LUT_BUILD` sums it. -/
theorem lutLoadBuildsItsTable : Obligations.LutLoadBuildsItsTable := by
  refine ⟨ucum_getElem, fun s hf => ?_, fun s freqs hf hsum => ?_⟩
  · have hones : Pseudo.lutUniform.expand = loadTable onesFreq.toList := by
      rw [Pseudo.expand, loadTable, onesFreq_toList]
    rw [hones]
    exact ⟨_, runCommands_loadTable onesFreq hf onesFreq_sum, buildTable_onesFreq, rfl⟩
  · have hfit := (buildSums_fit_iff freqs).mpr hsum
    exact ⟨_, runCommands_loadTable freqs hf hsum, rfl, rfl, (buildTable_inv hfit).first,
      buildTable_succ hfit, rfl⟩

/-! ### The symbol search (R204) -/

/-- The search answers exactly the symbol whose entries enclose the value. -/
theorem findSymbol_eq_ok_iff {tab : Table} {value : Nat} (hi : Table.Inv tab)
    (hv : value < tableTotal tab) (sym : Byte) :
    findSymbol tab value = .ok sym ↔ cumLow tab sym ≤ value ∧ value < cumNext tab sym := by
  constructor
  · exact findSymbol_ok
  · intro hsym
    obtain ⟨r, hr⟩ := findSymbol_total hi hv
    rw [hr, symbol_unique hi (findSymbol_ok hr) hsym]

/-- Settles O31: the search answers, and the table does not fall up to the symbol it answers. -/
theorem findSymbolIsTheInverse : Obligations.FindSymbolIsTheInverse := by
  intro tab value hi hv
  refine ⟨findSymbol_total hi hv, fun sym => ⟨findSymbol_eq_ok_iff hi hv sym, fun hsym => ?_⟩⟩
  obtain ⟨hlow, hnext⟩ := findSymbol_ok hsym
  exact ⟨fun j hj hjs => (hi.mono hjs (by have := sym.isLt; omega)).trans hlow, by omega⟩

end Sys2Proof.Machine
end

section
/-! The bit stream of a flushed sink (41_bit_sink_source.md, R141, R142) and the end of an encoder
session (42_range_encoder.md, R170). -/

namespace Sys2Proof.Machine

/-- The bytes of a flushed sink read as the bits put, then zeros (R54). -/
theorem streamBit_sinkFlush (e : Encoder) (k : Nat) :
    streamBit (sinkFlush e).out k = (sinkBits e).getD k false := by
  rw [streamBit_eq, sinkFlush_bits]
  rcases Nat.lt_or_ge k (sinkBits e).length with h | h
  · simp [List.getD_eq_getElem?_getD, List.getElem?_append_left h]
  · rw [List.getD_eq_default _ _ h, List.getD_eq_getElem?_getD, List.getElem?_append_right h,
      List.getElem?_replicate]
    split <;> rfl

theorem sinkBits_foldl_sinkPut (bits : List Bool) (e : Encoder) :
    sinkBits (bits.foldl (fun e b => sinkPut b e) e) = sinkBits e ++ bits := by
  induction bits generalizing e with
  | nil => simp
  | cons b bits ih => rw [List.foldl_cons, ih, sinkBits_sinkPut, List.append_assoc]; rfl

/-- Settles O32: each `SinkPut` appends its bit to the bits put, and the flush pads them. -/
theorem sinkCorrespondence : Obligations.SinkCorrespondence := by
  intro bits e hout hcnt t
  have hempty : sinkBits e = [] := by simp [sinkBits, heldBits, hout, hcnt]
  have hbits : sinkBits (bits.foldl (fun e b => sinkPut b e) e) = bits := by
    rw [sinkBits_foldl_sinkPut, hempty, List.nil_append]
  refine ⟨?_, fun k => ?_⟩
  · rw [sinkFlush_length, hbits]
  · rw [streamBit_sinkFlush, hbits]

/-! ### `ENC_FIN` (R170) -/

/-- The bits of a session after `ENC_FIN`, before the padding. -/
def finalBits (e : Encoder) : List Bool :=
  sinkBits e ++ decide (quarter ≤ e.low.toNat) ::
    List.replicate (e.pending.toNat + 1) (!decide (quarter ≤ e.low.toNat))

/-- The encoder after `ENC_FIN`. -/
def finishedEncoder (e : Encoder) : Encoder :=
  { sinkFlush (emit (quarter ≤ e.low.toNat) { e with pending := e.pending + 1 }) with
    phase := .finished }

/-- `ENC_FIN` completes while the counter is below its limit. -/
theorem exec_encFin {s : State} (hf : s.fault = false) (hp : s.enc.phase ≠ .finished)
    (hlim : s.enc.pending.toNat < Config.pendingLimit) :
    exec .encFin s = .next { s with enc := finishedEncoder s.enc } := by
  have hrule : encFinRule s = .ok { s with enc := finishedEncoder s.enc } := by
    unfold encFinRule finishEncoder
    rw [require_bind, if_pos hp, addPending_of_lt hlim]
    rfl
  rw [exec, execEncFin, hrule, command_ok hf]

theorem sinkBits_final {e : Encoder} (hlim : e.pending.toNat < Config.pendingLimit) :
    sinkBits (emit (quarter ≤ e.low.toNat) { e with pending := e.pending + 1 }) = finalBits e := by
  have hadd := (addPending_ok (addPending_of_lt hlim)).2
  rw [sinkBits_emit, hadd]
  rfl

/-- The stream of a finished session is its bits, then zeros. -/
theorem streamBit_finished {e : Encoder} (hlim : e.pending.toNat < Config.pendingLimit) (k : Nat) :
    streamBit (finishedEncoder e).out k = (finalBits e).getD k false :=
  (streamBit_sinkFlush _ k).trans (by rw [sinkBits_final hlim])

/-- Settles O40: `Emit` puts the deciding bit and its complements, and the flush pads them. -/
theorem encFinCompletesStream : Obligations.EncFinCompletesStream := by
  intro s hf hp hlim
  refine ⟨_, exec_encFin hf hp hlim, rfl, ?_, ?_, ?_, ?_, rfl, ?_, streamBit_finished hlim⟩
  · simp [finishedEncoder]
  · simp [finishedEncoder]
  · simp [finishedEncoder]
  · simp [finishedEncoder]
  · exact (sinkFlush_length _).trans (by rw [sinkBits_final hlim]; rfl)

end Sys2Proof.Machine
end

section
/-! One symbol through the encoder and the decoder (42_range_encoder.md, R161 to R169;
43_range_decoder.md, R202 to R210): both commands on a legal state, the exactness of the encoder in the
code space, and the lock-step of the two loops. -/

namespace Sys2Proof.Machine

/-! ### `ENC_SYM` on a legal state (R161) -/

/-- The interval `Narrow` gives a symbol of a legal state: where the bounds stand, and that they are in
order inside the old ones (R163). -/
theorem narrow_symbol {low high : Word} {tab : Table} {sym : Byte} (hti : Table.Inv tab)
    (ho : low.toNat ≤ high.toNat) (hr : tableTotal tab ≤ high.toNat - low.toNat + 1)
    (hf : cumLow tab sym < cumNext tab sym) :
    ∃ b, narrow low high (cumLow tab sym) (cumNext tab sym - cumLow tab sym) (tableTotal tab) = .ok b ∧
      low.toNat ≤ b.1.toNat ∧ b.1.toNat ≤ b.2.toNat ∧ b.2.toNat ≤ high.toNat ∧
      b.1.toNat = low.toNat + (high.toNat - low.toNat + 1) * cumLow tab sym / tableTotal tab ∧
      b.2.toNat + 1
        = low.toNat + (high.toNat - low.toNat + 1) * cumNext tab sym / tableTotal tab := by
  have hnext := hti.cumNext_le sym
  obtain ⟨b, hn, hlow, horder, hhigh⟩ := narrow_ok (cl := cumLow tab sym)
    (f := cumNext tab sym - cumLow tab sym) ho hr (by omega) (by omega)
  obtain ⟨-, h1, h2⟩ := narrow_eq_ok hn
  rw [Nat.add_sub_cancel' hf.le] at h2
  exact ⟨b, hn, hlow, horder, hhigh, h1, h2⟩

/-- A non-empty interval fills the 32-bit space within the iterations of R169. -/
theorem fuel_suffices {low high : Nat} : 2 ^ 32 ≤ (high - low + 1) * 2 ^ Config.renormFuel :=
  Nat.le_mul_of_pos_left _ (Nat.succ_pos _)

/-- `ENC_SYM` past its checks is the loop from the narrowed interval. -/
theorem encSymRule_eq_renorm {s : State} {m : TableSel} {sym : Byte} {b : Word × Word}
    (hp : s.enc.phase ≠ .finished) (hu : Usable s m)
    (hf : cumLow (selectedTable s m) sym < cumNext (selectedTable s m) sym)
    (hn : narrow s.enc.low s.enc.high (cumLow (selectedTable s m) sym)
      (cumNext (selectedTable s m) sym - cumLow (selectedTable s m) sym)
      (tableTotal (selectedTable s m)) = .ok b) :
    encSymRule m sym s =
      encRenorm Config.renormFuel { s.enc with low := b.1, high := b.2 } >>= fun u =>
        .ok { s with enc := { u with phase := .encoding } } := by
  rw [encSymRule_eq hp hu hf, encodeSymbol, hn]
  simp only [ok_bind, bind_assoc, pure_bind]

/-- The loop keeps the bits put at the beginning of the bits put. -/
theorem encCaseBits_sinkBits {c : RenormCase} {e e' : Encoder} (h : encCaseBits c e = .ok e') :
    sinkBits e <+: sinkBits e' := by
  cases c with
  | lower | upper => cases h; rw [sinkBits_emit]; exact List.prefix_append _ _
  | middle => rw [(addPending_ok h).1]; exact List.prefix_rfl
  | stop => cases h; exact List.prefix_rfl

theorem encRenorm_sinkBits {n : Nat} {e t : Encoder} (h : encRenorm n e = .ok t) :
    sinkBits e <+: sinkBits t ∧ renormCase t.low t.high = .stop :=
  encRenorm_keeps (P := fun x => sinkBits e <+: sinkBits x)
    (fun _ _ _ hx hc => (hx.trans (encCaseBits_sinkBits hc) :)) n List.prefix_rfl h

/-- Settles O35: with room for one pending bit per iteration the loop completes, and it stops in
case 4. -/
theorem encSymCompletes : Obligations.EncSymCompletes := by
  intro s m sym hi hf hp hu hfreq hroom
  have hrange := encoder_range hi.enc hp (hu.2.2.trans hi.maxTotal.2)
  obtain ⟨b, hn, -, horder, -⟩ := narrow_symbol (selectedTable_inv hi hu) hi.enc.ordered hrange hfreq
  obtain ⟨u, hrenorm⟩ := encRenorm_completes Config.renormFuel
    (e := { s.enc with low := b.1, high := b.2 }) horder fuel_suffices hroom
  obtain ⟨hbits, hstop⟩ := encRenorm_sinkBits hrenorm
  obtain ⟨hlow, hhigh, hwide⟩ := renormCase_stop hstop
  refine ⟨{ s with enc := { u with phase := .encoding } }, ?_, hf, rfl, hlow, hhigh, hwide, hbits, rfl⟩
  rw [exec, execEncSym, encSymRule_eq_renorm hp hu hfreq hn, hrenorm, ok_bind, command_ok hf]

/-- Settles O36: the loop overflows exactly when the counter fills on its way from the narrowed
interval. -/
theorem encSymOverflowsAtTheLimit : Obligations.EncSymOverflowsAtTheLimit := by
  intro s m sym hi hf hp hu hfreq range low high fills
  have hrange := encoder_range hi.enc hp (hu.2.2.trans hi.maxTotal.2)
  obtain ⟨b, hn, -, horder, -, hb1, hb2⟩ :=
    narrow_symbol (selectedTable_inv hi hu) hi.enc.ordered hrange hfreq
  have hfills : ({ s.enc with low := b.1, high := b.2 } : Encoder).Fills ↔ fills := by
    have hlow : b.1.toNat = low := hb1
    have hhigh : b.2.toNat = high := Nat.eq_sub_of_add_eq hb2
    simp only [Encoder.Fills, hlow, hhigh]
    rfl
  obtain ⟨hover, hends⟩ := encRenorm_fills Config.renormFuel
    (e := { s.enc with low := b.1, high := b.2 }) horder fuel_suffices le_rfl
  rw [exec, execEncSym, encSymRule_eq_renorm hp hu hfreq hn]
  constructor
  · intro h
    rw [hover (hfills.mpr h), error_bind]
    exact command_raise hf .pendingOverflow
  · intro h
    obtain ⟨u, hrenorm⟩ := hends (mt hfills.mp h)
    rw [hrenorm, ok_bind, command_ok hf]
    exact ⟨_, rfl, hf, rfl, rfl⟩

/-! ### Exactness in the code space (R165 to R168) -/

/-- A point of the interval after one iteration: twice as far into the code space. -/
theorem codePoint_bounds {e e' : Encoder} (hs : renormCase e.low e.high ≠ .stop)
    (ho : e.low.toNat ≤ e.high.toNat) (h : encCaseBits (renormCase e.low e.high) e = .ok e') :
    let t := encMove (renormCase e.low e.high) e'
    codePoint t t.low.toNat = 2 * codePoint e e.low.toNat ∧
      codePoint t (t.high.toNat + 1) = 2 * codePoint e (e.high.toNat + 1) := by
  obtain ⟨h1, h2, -⟩ := encCaseBits_ok h
  obtain ⟨b1, b2, hoff⟩ := renorm_bounds hs ho
  have hlow : (encMove (renormCase e.low e.high) e').low.toNat
      = 2 * (e.low.toNat - (renormCase e.low e.high).offset.toNat) := by rw [← b1, ← h1]; rfl
  have hhigh : (encMove (renormCase e.low e.high) e').high.toNat + 1
      = 2 * (e.high.toNat + 1 - (renormCase e.low e.high).offset.toNat) := by
    have : (encMove (renormCase e.low e.high) e').high.toNat
      = 2 * (e.high.toNat - (renormCase e.low e.high).offset.toNat) + 1 := by rw [← b2, ← h2]; rfl
    omega
  exact ⟨by rw [hlow, codePoint_step h hs hoff], by rw [hhigh, codePoint_step h hs (by omega)]⟩

/-- The loop magnifies the interval by a power of two, one bit put or made pending per iteration. -/
theorem encRenorm_exact (n : Nat) {e t : Encoder} (ho : e.low.toNat ≤ e.high.toNat)
    (h : encRenorm n e = .ok t) :
    ∃ k ≤ n, shiftCount t = shiftCount e + k ∧
      codePoint t t.low.toNat = 2 ^ k * codePoint e e.low.toNat ∧
      codePoint t (t.high.toNat + 1) = 2 ^ k * codePoint e (e.high.toNat + 1) := by
  induction n generalizing e with
  | zero =>
    unfold encRenorm at h
    split at h
    · cases h; exact ⟨0, le_rfl, by simp⟩
    · cases h
  | succ n ih =>
    by_cases hs : renormCase e.low e.high = .stop
    · rw [encRenorm_stop hs] at h
      cases h
      exact ⟨0, Nat.zero_le _, by simp⟩
    · rw [encRenorm_step hs] at h
      obtain ⟨e', hc, hloop⟩ := bind_eq_ok.mp h
      obtain ⟨k, hk, hcount, hlow, hhigh⟩ := ih (encStep_ordered hs ho hc) hloop
      obtain ⟨hlow', hhigh'⟩ := codePoint_bounds hs ho hc
      refine ⟨k + 1, by omega, ?_, ?_, ?_⟩
      · rw [hcount, shiftCount_step hc hs]; omega
      · rw [hlow, hlow']; ring
      · rw [hhigh, hhigh']; ring

/-- All `ENC_SYM` has done when it ends with no fault on a legal state: the loop from the narrowed
interval of the symbol. -/
theorem exec_encSym_ok {s t : State} {m : TableSel} {sym : Byte} (hi : s.Inv)
    (h : exec (.encSym m sym) s = .next t) (ht : t.fault = false) :
    s.fault = false ∧ s.enc.phase ≠ .finished ∧ Usable s m ∧
      cumLow (selectedTable s m) sym < cumNext (selectedTable s m) sym ∧
      ∃ b u, narrow s.enc.low s.enc.high (cumLow (selectedTable s m) sym)
          (cumNext (selectedTable s m) sym - cumLow (selectedTable s m) sym)
          (tableTotal (selectedTable s m)) = .ok b ∧
        encRenorm Config.renormFuel { s.enc with low := b.1, high := b.2 } = .ok u ∧
        t = { s with enc := { u with phase := .encoding } } := by
  obtain ⟨hs, hok⟩ := command_completed h ht
  obtain ⟨hp, hu, f, e, hf, hf0, he, rfl⟩ := encSymRule_ok hok
  have hti := selectedTable_inv hi hu
  obtain rfl := Except.ok.inj ((symFreq_ok hti sym).symm.trans hf)
  obtain ⟨b, u, hn, hrenorm, rfl⟩ := encodeSymbol_ok he
  exact ⟨hs, hp, hu, by omega, b, u, hn, hrenorm, rfl⟩

/-- Settles O38: the narrowed interval is where `Narrow` puts it, and the loop magnifies it. -/
theorem encSymIsExact : Obligations.EncSymIsExact := by
  intro s t m sym hi hf h ht tab range
  obtain ⟨-, hp, hu, hfreq, b, u, hn, hrenorm, rfl⟩ := exec_encSym_ok hi h ht
  have hrange := encoder_range hi.enc hp (hu.2.2.trans hi.maxTotal.2)
  obtain ⟨b', hn', -, horder, -, hb1, hb2⟩ :=
    narrow_symbol (selectedTable_inv hi hu) hi.enc.ordered hrange hfreq
  obtain rfl : b' = b := Except.ok.inj (hn'.symm.trans hn)
  obtain ⟨k, hk, hcount, hlow, hhigh⟩ := encRenorm_exact Config.renormFuel
    (e := { s.enc with low := b'.1, high := b'.2 }) horder hrenorm
  exact ⟨k, hk, hcount, hb1 ▸ hlow, hb2 ▸ hhigh⟩

/-! ### `DEC_SYM` on a legal state (R202) -/

/-- The decoder's own part from the parts it runs through. -/
theorem decodeSymbol_of_parts {tab : Table} {d d' : Decoder} {v : Nat} {sym : Byte} {b : Word × Word}
    (hti : Table.Inv tab) (hv : decValue (tableTotal tab) d = .ok v) (hs : findSymbol tab v = .ok sym)
    (hn : narrow d.low d.high (cumLow tab sym) (cumNext tab sym - cumLow tab sym) (tableTotal tab)
      = .ok b)
    (hd : decRenorm Config.renormFuel { d with low := b.1, high := b.2 } = .ok d') :
    decodeSymbol tab d = .ok (sym, d') := by
  rw [decodeSymbol, hv, ok_bind, hs, ok_bind, symFreq_ok hti, ok_bind, hn, ok_bind, hd]
  rfl

/-- `DEC_SYM` past its checks responds with the symbol of the decoder's own part. -/
theorem exec_decSym_of_decodeSymbol {s : State} {m : TableSel} {sym : Byte} {d : Decoder}
    (hf : s.fault = false) (ha : s.dec.active = true) (hu : Usable s m)
    (h : decodeSymbol (selectedTable s m) s.dec = .ok (sym, d)) :
    exec (.decSym m) s = .next (respond (sym.setWidth 32) { s with dec := d }) := by
  rw [exec, execDecSym, decSymRule_eq ha hu, h, ok_bind, command_ok hf]

/-- Settles O42: the symbol, the bounds and the code after it are those of the decoder's own part. -/
theorem decSymCompletes : Obligations.DecSymCompletes := by
  intro s m hi hf ha hu
  obtain ⟨v, sym, d, hv, -, hd, hlow, hnext, hcode, hwide, hactive, hinput, hpos, hpos'⟩ :=
    decodeSymbol_ok (selectedTable_inv hi hu) hu.2.1 (hu.2.2.trans hi.maxTotal.2)
      (hi.dec.codeInside ha) (hi.dec.wide ha)
  obtain ⟨-, -, -, rfl⟩ := decValue_eq_ok hv
  exact ⟨_, exec_decSym_of_decodeSymbol hf ha hu hd, hf, rfl, ⟨sym, rfl, hlow, hnext⟩,
    hcode.1, hcode.2, hwide, hactive.trans ha, hinput, hpos, hpos'⟩

/-! ### Lock-step (R209, R210) -/

/-- The induction over both loops, once: from equal bounds they take the same cases, so the decoder's
loop completes with the encoder's, and what a common iteration keeps holds of the results. -/
theorem renorm_lockStep {R : Encoder → Decoder → Prop}
    (keeps : ∀ e e' d, d.low = e.low → d.high = e.high → renormCase e.low e.high ≠ .stop → R e d →
      encCaseBits (renormCase e.low e.high) e = .ok e' →
      R (encMove (renormCase e.low e.high) e') (decMove (renormCase e.low e.high) d))
    (n : Nat) {e u : Encoder} {d : Decoder} (hlow : d.low = e.low) (hhigh : d.high = e.high)
    (hR : R e d) (h : encRenorm n e = .ok u) :
    ∃ d', decRenorm n d = .ok d' ∧ d'.low = u.low ∧ d'.high = u.high ∧ R u d' := by
  induction n generalizing e d with
  | zero =>
    unfold encRenorm at h
    split at h
    case isTrue hs =>
      cases h
      exact ⟨d, decRenorm_stop (by rw [hlow, hhigh, hs]), hlow, hhigh, hR⟩
    case isFalse => cases h
  | succ n ih =>
    by_cases hs : renormCase e.low e.high = .stop
    · rw [encRenorm_stop hs] at h
      cases h
      exact ⟨d, decRenorm_stop (by rw [hlow, hhigh, hs]), hlow, hhigh, hR⟩
    · rw [encRenorm_step hs] at h
      obtain ⟨e', hc, hloop⟩ := bind_eq_ok.mp h
      obtain ⟨h1, h2, -⟩ := encCaseBits_ok hc
      rw [decRenorm_step (by rw [hlow, hhigh]; exact hs), hlow, hhigh]
      exact ih (by rw [decMove_low, hlow, ← h1]; rfl) (by rw [decMove_high, hhigh, ← h2]; rfl)
        (keeps e e' d hlow hhigh hs hR hc) hloop

/-- A symbol is known by its response. -/
theorem setWidth_byte_inj {a b : Byte} (h : a.setWidth 32 = b.setWidth 32) : a = b := by
  have hnat := congrArg BitVec.toNat h
  simp only [BitVec.toNat_setWidth] at hnat
  have ha := a.isLt
  have hb := b.isLt
  exact BitVec.eq_of_toNat_eq (by omega)

/-- The selected table is a part of the tables. -/
theorem selectedTable_congr {s s' : State} (h : s'.lut = s.lut) (m : TableSel) :
    selectedTable s' m = selectedTable s m := by
  cases m
  · rfl
  · exact congrArg Lut.cum h

/-- Settles O45: both commands narrow the same bounds to the same symbol, and their loops run in
lock-step, each iteration one bit read for one bit put or made pending. -/
theorem lockStepOfOneSymbol : Obligations.LockStepOfOneSymbol := by
  intro s t s' t' m sym hi hf hst ht hi' hf' hlut hmax hlow hhigh hst' hrsp
  obtain ⟨-, -, -, -, b, u, hn, hrenorm, rfl⟩ := exec_encSym_ok hi hst ht
  obtain ⟨-, hu', r, hr, rfl⟩ := decSymRule_ok (command_of_rsp hst' hrsp)
  have htab := selectedTable_congr hlut m
  obtain rfl : r.1 = sym := setWidth_byte_inj (by simpa using hrsp)
  obtain ⟨-, f, b', -, -, hf1, hn', hdec⟩ := decodeSymbol_eq_ok hr
  obtain rfl := Except.ok.inj ((symFreq_ok (selectedTable_inv hi' hu') r.1).symm.trans hf1)
  rw [htab, hlow, hhigh, hn] at hn'
  obtain rfl := Except.ok.inj hn'
  obtain ⟨d, hd, hdlow, hdhigh, hcount⟩ := renorm_lockStep
    (R := fun x y => y.bitPos + shiftCount s.enc = s'.dec.bitPos + shiftCount x)
    (fun x x' y _ _ hs hxy hc => by rw [decMove_bitPos, shiftCount_step hc hs]; omega)
    Config.renormFuel (e := { s.enc with low := b.1, high := b.2 })
    (d := { s'.dec with low := b.1, high := b.2 }) rfl rfl rfl hrenorm
  obtain rfl := Except.ok.inj (hd.symm.trans hdec)
  exact ⟨hdlow, hdhigh, hcount⟩

end Sys2Proof.Machine
end

section
/-! Uniform symbols from the full interval (42_range_encoder.md, R171; 43_range_decoder.md, R202): the
interval of a byte halves eight times, each time by a bit of the byte. -/

namespace Sys2Proof.Machine

/-! ### Intervals of leading bits -/

/-- The numbers whose first `k` bits, of 32, write `x`. -/
def Leading (k x : Nat) (low high : Word) : Prop :=
  x < 2 ^ k ∧ low.toNat = x * 2 ^ (32 - k) ∧ high.toNat + 1 = (x + 1) * 2 ^ (32 - k)

/-- The `k` bits that write `x`, most significant first. -/
def leadingBits (k x : Nat) : List Bool := (List.range k).map fun i => x.testBit (k - 1 - i)

theorem leadingBits_succ {k x : Nat} (h : x < 2 ^ (k + 1)) :
    leadingBits (k + 1) x = decide (2 ^ k ≤ x) :: leadingBits k (x % 2 ^ k) := by
  have hfirst : x.testBit k = decide (2 ^ k ≤ x) := by
    rw [pow_succ] at h
    by_cases hx : 2 ^ k ≤ x
    · have hdiv : x / 2 ^ k = 1 := Nat.div_eq_of_lt_le (by omega) (by omega)
      simp [Nat.testBit_eq_decide_div_mod_eq, hdiv, hx]
    · simp [Nat.testBit_eq_decide_div_mod_eq, Nat.div_eq_of_lt (Nat.not_le.mp hx), hx]
  rw [leadingBits, List.range_succ_eq_map, List.map_cons, List.map_map]
  congr 1
  refine List.map_congr_left fun i hi => ?_
  have hik : i < k := List.mem_range.mp hi
  rw [Nat.testBit_mod_two_pow, Function.comp_apply, Nat.add_sub_cancel, Nat.succ_eq_add_one,
    Nat.add_comm i, ← Nat.sub_sub, decide_eq_true (by omega), Bool.true_and]

theorem byteBits_eq_leadingBits (b : Byte) : byteBits b = leadingBits 8 b.toNat := rfl

/-- No leading bit given: the full interval. -/
theorem leading_zero {x : Nat} {low high : Word} (h : Leading 0 x low high) :
    low = 0 ∧ high = 0xFFFFFFFF := by
  obtain ⟨hx, hlow, hhigh⟩ := h
  obtain rfl : x = 0 := by omega
  constructor
  · exact BitVec.eq_of_toNat_eq (by simpa using hlow)
  · exact BitVec.eq_of_toNat_eq (by simp at hhigh ⊢; omega)

/-- The first leading bit chooses case 1 or case 2, and the iteration leaves the bits after it. -/
theorem leading_step {k x : Nat} {low high : Word} (hk : k < 32) (h : Leading (k + 1) x low high) :
    renormCase low high = (if 2 ^ k ≤ x then .upper else .lower) ∧
      Leading k (x % 2 ^ k) (shiftLow (low - (renormCase low high).offset))
        (shiftHigh (high - (renormCase low high).offset)) := by
  obtain ⟨hx, hlow, hhigh⟩ := h
  obtain ⟨P, hP⟩ : ∃ P, 2 ^ (32 - (k + 1)) = P := ⟨_, rfl⟩
  obtain ⟨Q, hQ⟩ : ∃ Q, 2 ^ k = Q := ⟨_, rfl⟩
  have hQP : Q * P = half := by
    rw [← hP, ← hQ, ← pow_add, show k + (32 - (k + 1)) = 31 by omega]; rfl
  have h2P : 2 ^ (32 - k) = 2 * P := by
    rw [← hP, ← pow_succ', show 32 - (k + 1) + 1 = 32 - k by omega]
  have hPpos : 1 ≤ P := hP ▸ Nat.one_le_two_pow
  rw [pow_succ, hQ] at hx
  rw [hP] at hlow hhigh
  rw [hQ, Leading, hQ, h2P]
  have hexpand : (x + 1) * P = x * P + P := by ring
  by_cases hxQ : Q ≤ x
  · have hmod : x % Q = x - Q := by
      rw [Nat.mod_eq_sub_mod hxQ, Nat.mod_eq_of_lt (by omega)]
    obtain ⟨y, rfl⟩ := Nat.exists_eq_add_of_le hxQ
    have hy : (Q + y) * P = half + y * P := by rw [add_mul, hQP]
    have hcase : renormCase low high = .upper := by
      unfold renormCase
      rw [if_neg (by omega), if_pos (by omega)]
    obtain ⟨b1, b2, -⟩ := renorm_bounds (hcase ▸ nofun) (by omega : low.toNat ≤ high.toNat)
    have hoff : (renormCase low high).offset.toNat = half := by rw [hcase]; rfl
    refine ⟨by rw [hcase, if_pos hxQ], by omega, ?_, ?_⟩
    · rw [b1, hoff, hlow, hy, hmod, Nat.add_sub_cancel_left, Nat.add_sub_cancel_left]; ring
    · rw [b2, hoff, hmod, Nat.add_sub_cancel_left]
      have : 2 * (high.toNat - half) + 1 + 1 = 2 * (high.toNat + 1 - half) := by omega
      rw [this, hhigh, hexpand, hy, Nat.add_assoc, Nat.add_sub_cancel_left]
      ring
  · have hmod : x % Q = x := Nat.mod_eq_of_lt (by omega)
    have hle : (x + 1) * P ≤ Q * P := Nat.mul_le_mul_right _ (by omega)
    have hcase : renormCase low high = .lower := by
      unfold renormCase
      rw [if_pos (by omega)]
    obtain ⟨b1, b2, -⟩ := renorm_bounds (hcase ▸ nofun) (by omega : low.toNat ≤ high.toNat)
    have hoff : (renormCase low high).offset.toNat = 0 := by rw [hcase]; rfl
    refine ⟨by rw [hcase, if_neg hxQ], by omega, ?_, ?_⟩
    · rw [b1, hoff, hlow, hmod, Nat.sub_zero]; ring
    · rw [b2, hoff, hmod, Nat.sub_zero]
      have : 2 * high.toNat + 1 + 1 = 2 * (high.toNat + 1) := by ring
      rw [this, hhigh]
      ring

/-- A uniform symbol narrows the full interval to the numbers that begin with its byte (R171). -/
theorem narrow_uniform (sym : Byte) :
    ∃ b, narrow 0 0xFFFFFFFF (cumLow ucum sym) (cumNext ucum sym - cumLow ucum sym) (tableTotal ucum)
        = .ok b ∧ Leading 8 sym.toNat b.1 b.2 := by
  have htop : (0xFFFFFFFF : Word).toNat = 4294967295 := by decide
  have hzero : (0 : Word).toNat = 0 := rfl
  obtain ⟨b, hn, -, -, -, h1, h2⟩ := narrow_symbol (low := 0) (high := 0xFFFFFFFF) (sym := sym)
    ucum_inv (by rw [hzero]; omega) (by rw [ucum_total, htop, hzero]; omega)
    (by rw [ucum_cumLow, ucum_cumNext]; omega)
  rw [ucum_cumLow, ucum_total, htop, hzero] at h1
  rw [ucum_cumNext, ucum_total, htop, hzero] at h2
  exact ⟨b, hn, sym.isLt, by omega, by omega⟩

theorem usable_uniform {s : State} (h : 256 ≤ s.maxTotal.toNat) : Usable s .uniform :=
  ⟨nofun, by rw [selectedTable, ucum_total]; omega, by rw [selectedTable, ucum_total]; exact h⟩

/-! ### The encoder (R171) -/

/-- With nothing pending, the loop puts the leading bits of the interval and nothing else. -/
theorem encRenorm_leading {k n x : Nat} (hkn : k ≤ n) (hk : k ≤ 32) {e : Encoder}
    (h : Leading k x e.low e.high) (hp : e.pending = 0) :
    ∃ t, encRenorm n e = .ok t ∧ t.low = 0 ∧ t.high = 0xFFFFFFFF ∧ t.pending = 0 ∧
      sinkBits t = sinkBits e ++ leadingBits k x := by
  induction k generalizing n x e with
  | zero =>
    obtain ⟨hlow, hhigh⟩ := leading_zero h
    refine ⟨e, encRenorm_stop ?_, hlow, hhigh, hp, (List.append_nil _).symm⟩
    rw [hlow, hhigh]
    decide
  | succ k ih =>
    obtain ⟨n, rfl⟩ := Nat.exists_eq_add_of_le' (Nat.one_le_of_lt hkn)
    obtain ⟨hcase, hrest⟩ := leading_step (by omega) h
    have hbits : encCaseBits (renormCase e.low e.high) e = .ok (emit (decide (2 ^ k ≤ x)) e) := by
      rw [hcase]
      by_cases hx : 2 ^ k ≤ x <;> simp [hx, encCaseBits]
    have hstop : renormCase e.low e.high ≠ .stop := by
      rw [hcase]
      split <;> nofun
    have hmove : Leading k (x % 2 ^ k)
        (encMove (renormCase e.low e.high) (emit (decide (2 ^ k ≤ x)) e)).low
        (encMove (renormCase e.low e.high) (emit (decide (2 ^ k ≤ x)) e)).high := by
      simpa only [encMove, emit_low, emit_high] using hrest
    obtain ⟨t, ht, hlow, hhigh, hpending, htbits⟩ :=
      ih (n := n) (by omega) (by omega) hmove rfl
    refine ⟨t, ?_, hlow, hhigh, hpending, ?_⟩
    · rw [encRenorm_step hstop, hbits, ok_bind, ht]
    · rw [htbits, sinkBits_encMove, sinkBits_emit, hp, leadingBits_succ h.1]
      simp

/-- Settles O39: the loop puts the eight leading bits of the narrowed interval. -/
theorem uniformSymbolPutsItsByte : Obligations.UniformSymbolPutsItsByte := by
  intro s sym hf hp hmax hlow hhigh hpending
  obtain ⟨b, hn, hlead⟩ := narrow_uniform sym
  obtain ⟨u, hu, hulow, huhigh, hupending, hbits⟩ := encRenorm_leading (n := Config.renormFuel)
    (e := { s.enc with low := b.1, high := b.2 }) (by decide) (by decide) hlead hpending
  refine ⟨{ s with enc := { u with phase := .encoding } }, ?_, hulow, huhigh, hupending, rfl,
    (byteBits_eq_leadingBits sym ▸ hbits :), rfl⟩
  have hfreq : cumLow (selectedTable s .uniform) sym < cumNext (selectedTable s .uniform) sym := by
    rw [selectedTable, ucum_cumLow, ucum_cumNext]; omega
  rw [exec, execEncSym, encSymRule_eq_renorm hp (usable_uniform hmax) hfreq
    (b := b) (by rw [hlow, hhigh]; exact hn), hu, ok_bind, command_ok hf]

/-! ### The decoder (R206, R208) -/

/-- Reading bits leaves the bounds alone. -/
theorem shiftCodeInMany_withBounds (n : Nat) (low high : Word) (d : Decoder) :
    shiftCodeInMany n { d with low := low, high := high }
      = { shiftCodeInMany n d with low := low, high := high } := by
  induction n generalizing d with
  | zero => rfl
  | succ n ih => exact ih (shiftCodeIn d)

/-- In cases 1 and 2 the code loses its top bit and takes in the next one, whatever it was. -/
theorem decMove_of_half {c : RenormCase} (hc : c = .lower ∨ c = .upper) (d : Decoder) :
    decMove c d = { shiftCodeIn d with
      low := shiftLow (d.low - c.offset), high := shiftHigh (d.high - c.offset) } := by
  have hcode : (d.code - c.offset) <<< 1 = d.code <<< 1 := by
    obtain rfl | rfl := hc
    · rw [RenormCase.offset, BitVec.ofNat_eq_ofNat, BitVec.sub_zero]
    · apply BitVec.eq_of_toNat_eq
      have hlt := d.code.isLt
      simp only [RenormCase.offset, half, BitVec.toNat_shiftLeft, BitVec.toNat_sub,
        BitVec.toNat_ofNat, Nat.shiftLeft_eq]
      omega
  simp only [decMove, shiftCodeIn, sourceGet, hcode]

/-- The loop reads one bit for each leading bit of the interval, and leaves it full. -/
theorem decRenorm_leading {k n x : Nat} (hkn : k ≤ n) (hk : k ≤ 32) {d : Decoder}
    (h : Leading k x d.low d.high) :
    decRenorm n d = .ok { shiftCodeInMany k d with low := 0, high := 0xFFFFFFFF } := by
  induction k generalizing n x d with
  | zero =>
    obtain ⟨hlow, hhigh⟩ := leading_zero h
    rw [decRenorm_stop (by rw [hlow, hhigh]; decide), ← hlow, ← hhigh]
    rfl
  | succ k ih =>
    obtain ⟨n, rfl⟩ := Nat.exists_eq_add_of_le' (Nat.one_le_of_lt hkn)
    obtain ⟨hcase, hrest⟩ := leading_step (by omega) h
    have hhalf : renormCase d.low d.high = .lower ∨ renormCase d.low d.high = .upper := by
      rw [hcase]
      split
      · exact .inr rfl
      · exact .inl rfl
    have hstop : renormCase d.low d.high ≠ .stop := by
      obtain hc | hc := hhalf <;> rw [hc] <;> nofun
    rw [decRenorm_step hstop, ih (x := x % 2 ^ k) (by omega) (by omega) hrest, decMove_of_half hhalf,
      shiftCodeInMany_withBounds]
    rfl

/-- From the full interval the value of R203 under the uniform table is the top byte of the code. -/
theorem findSymbol_uniform {d : Decoder} (hlow : d.low = 0) (hhigh : d.high = 0xFFFFFFFF) :
    ∃ v, decValue (tableTotal ucum) d = .ok v ∧
      findSymbol ucum v = .ok (d.code.extractLsb' 24 8) := by
  have htop : d.high.toNat = 4294967295 := by rw [hhigh]; decide
  have hzero : d.low.toNat = 0 := by rw [hlow]; rfl
  have hlt := d.code.isLt
  obtain ⟨v, hv, hvt⟩ := decValue_ok (d := d) (total := tableTotal ucum) (by omega) (by omega)
    (by rw [ucum_total]; omega)
  obtain ⟨-, -, -, hval⟩ := decValue_eq_ok hv
  have hbyte : (d.code.extractLsb' 24 8).toNat = d.code.toNat / 2 ^ 24 := by
    rw [BitVec.extractLsb'_toNat, Nat.shiftRight_eq_div_pow]
    omega
  refine ⟨v, hv, (findSymbol_eq_ok_iff ucum_inv hvt _).mpr ?_⟩
  rw [ucum_cumLow, ucum_cumNext, hbyte]
  rw [ucum_total, htop, hzero] at hval
  omega

/-- Settles O44: the symbol is the top byte, and the loop reads one bit for each of its bits. -/
theorem uniformSymbolReadsItsByte : Obligations.UniformSymbolReadsItsByte := by
  intro s hf ha hmax hlow hhigh
  obtain ⟨v, hv, hs⟩ := findSymbol_uniform hlow hhigh
  obtain ⟨b, hn, hlead⟩ := narrow_uniform (s.dec.code.extractLsb' 24 8)
  have hd := decRenorm_leading (n := Config.renormFuel) (d := { s.dec with low := b.1, high := b.2 })
    (by decide) (by decide) hlead
  rw [shiftCodeInMany_withBounds] at hd
  refine ⟨_, exec_decSym_of_decodeSymbol hf ha (usable_uniform hmax)
    (decodeSymbol_of_parts ucum_inv hv hs (by rw [hlow, hhigh]; exact hn) hd), rfl, rfl, rfl,
    shiftCodeInMany_bitPos 8 s.dec, ?_, ?_, rfl⟩
  · exact fun k hk => shiftCodeInMany_getLsbD_add 8 s.dec k (by omega)
  · exact fun k hk => shiftCodeInMany_getLsbD_read 8 s.dec (by decide) k hk

end Sys2Proof.Machine
end

section
/-! The session round trip (42_range_encoder.md, R172; 43_range_decoder.md, R207, R209, R210): the number
the finished stream writes lies in the encoder's interval after every symbol, so the decoder, whose code
is that number's place in the interval, finds each symbol again. -/

namespace Sys2Proof.Machine

/-! ### The number a stream writes (R54) -/

/-- The number the first `n` bits of a byte sequence write, with zeros past its end. -/
def streamValue (bytes : List Byte) (n : Nat) : Nat := bitsValue ((List.range n).map (streamBit bytes))

theorem streamValue_succ (bytes : List Byte) (n : Nat) :
    streamValue bytes (n + 1) = 2 * streamValue bytes n + (streamBit bytes n).toNat := by
  simp [streamValue, List.range_succ, bitsValue_append, bitsValue_cons, Nat.mul_comm]

/-- More bits refine the number. -/
theorem streamValue_add (bytes : List Byte) (n k : Nat) :
    ∃ r < 2 ^ k, streamValue bytes (n + k) = 2 ^ k * streamValue bytes n + r := by
  induction k with
  | zero => exact ⟨0, Nat.one_pos, by simp⟩
  | succ k ih =>
    obtain ⟨r, hr, hval⟩ := ih
    have hbit : (streamBit bytes (n + k)).toNat ≤ 1 := Bool.toNat_le _
    refine ⟨2 * r + (streamBit bytes (n + k)).toNat, by rw [pow_succ]; omega, ?_⟩
    rw [← Nat.add_assoc, streamValue_succ, hval, pow_succ]
    ring

theorem streamValue_lt (bytes : List Byte) (n : Nat) : streamValue bytes n < 2 ^ n := by
  obtain ⟨r, hr, hval⟩ := streamValue_add bytes 0 n
  rw [Nat.zero_add] at hval
  rw [hval, show streamValue bytes 0 = 0 from rfl]
  omega

/-! ### The stream inside the encoder's interval -/

/-- The stream lies in the interval of the session, read as far as the session's shifts reach. -/
def Contains (out : List Byte) (e : Encoder) : Prop :=
  codePoint e e.low.toNat ≤ streamValue out (32 + shiftCount e) ∧
    streamValue out (32 + shiftCount e) < codePoint e (e.high.toNat + 1)

/-- The order of the points of an interval is their order in the code space. -/
theorem codePoint_le_iff (e : Encoder) (x y : Nat) : codePoint e x ≤ codePoint e y ↔ x ≤ y := by
  unfold codePoint
  omega

theorem codePoint_lt_iff (e : Encoder) (x y : Nat) : codePoint e x < codePoint e y ↔ x < y := by
  unfold codePoint
  omega

/-- A stream inside a part of the interval is inside the interval. -/
theorem Contains.widen {out : List Byte} {e : Encoder} {low high : Word}
    (h : Contains out { e with low := low, high := high }) (hlow : e.low.toNat ≤ low.toNat)
    (hhigh : high.toNat ≤ e.high.toNat) : Contains out e :=
  ⟨((codePoint_le_iff e _ _).mpr hlow).trans h.1,
    h.2.trans_le ((codePoint_le_iff e _ _).mpr (Nat.succ_le_succ hhigh))⟩

/-- The loop magnifies the interval and reads further into the stream, so what is inside after it was
inside before it. -/
theorem contains_of_encRenorm {out : List Byte} {n : Nat} {e t : Encoder}
    (ho : e.low.toNat ≤ e.high.toNat) (h : encRenorm n e = .ok t) (hc : Contains out t) :
    Contains out e := by
  obtain ⟨k, -, hcount, hlow, hhigh⟩ := encRenorm_exact n ho h
  obtain ⟨r, hr, hval⟩ := streamValue_add out (32 + shiftCount e) k
  obtain ⟨h1, h2⟩ := hc
  rw [hcount, ← Nat.add_assoc, hval] at h1 h2
  rw [hlow] at h1
  rw [hhigh] at h2
  constructor
  · refine Nat.le_of_lt_succ (Nat.lt_of_mul_lt_mul_left (a := 2 ^ k) ?_)
    rw [Nat.mul_succ]
    omega
  · exact Nat.lt_of_mul_lt_mul_left (a := 2 ^ k) (by omega)

/-- The interval of the symbol encoded contains what the interval after it contains. -/
theorem contains_narrowed {out : List Byte} {s t : State} {m : TableSel} {sym : Byte} (hi : s.Inv)
    (h : exec (.encSym m sym) s = .next t) (ht : t.fault = false) (hc : Contains out t.enc) :
    ∃ b, narrow s.enc.low s.enc.high (cumLow (selectedTable s m) sym)
        (cumNext (selectedTable s m) sym - cumLow (selectedTable s m) sym)
        (tableTotal (selectedTable s m)) = .ok b ∧
      Contains out { s.enc with low := b.1, high := b.2 } ∧
      s.enc.low.toNat ≤ b.1.toNat ∧ b.2.toNat ≤ s.enc.high.toNat := by
  obtain ⟨-, hp, hu, hfreq, b, u, hn, hrenorm, rfl⟩ := exec_encSym_ok hi h ht
  have hrange := encoder_range hi.enc hp (hu.2.2.trans hi.maxTotal.2)
  obtain ⟨b', hn', hlow, horder, hhigh, -⟩ :=
    narrow_symbol (selectedTable_inv hi hu) hi.enc.ordered hrange hfreq
  obtain rfl : b' = b := Except.ok.inj (hn'.symm.trans hn)
  exact ⟨b', hn, contains_of_encRenorm horder hrenorm hc, hlow, hhigh⟩

theorem contains_of_encSym {out : List Byte} {s t : State} {m : TableSel} {sym : Byte} (hi : s.Inv)
    (h : exec (.encSym m sym) s = .next t) (ht : t.fault = false) (hc : Contains out t.enc) :
    Contains out s.enc := by
  obtain ⟨b, -, hb, hlow, hhigh⟩ := contains_narrowed hi h ht hc
  exact hb.widen hlow hhigh

/-! ### The end of a session (R172) -/

/-- The stream of a finished session, read 30 bits past its last bit: the bits put, the deciding bit and
its complements, zeros. -/
theorem finished_stream {e : Encoder} (hlim : e.pending.toNat < Config.pendingLimit) :
    (List.range (32 + shiftCount e)).map (streamBit (finishedEncoder e).out)
      = finalBits e ++ List.replicate 30 false := by
  have hlen : (finalBits e).length = shiftCount e + 2 := by
    simp [finalBits, shiftCount]; omega
  apply List.ext_getElem
  · simp [hlen]; omega
  · intro k h1 h2
    rw [List.getElem_map, List.getElem_range, streamBit_finished hlim, List.getElem_append]
    split
    case isTrue hk => exact List.getD_eq_getElem _ _ hk
    case isFalse hk => rw [List.getD_eq_default _ _ (Nat.not_lt.mp hk), List.getElem_replicate]

/-- The final bits stand at a quarter or at the half of the code space of the interval. -/
theorem finished_value {e : Encoder} (hlim : e.pending.toNat < Config.pendingLimit) :
    streamValue (finishedEncoder e).out (32 + shiftCount e)
      = codePoint e (if quarter ≤ e.low.toNat then half else quarter) := by
  obtain ⟨q, hq⟩ : ∃ q, 2 ^ e.pending.toNat = q + 1 :=
    ⟨2 ^ e.pending.toNat - 1, (Nat.sub_add_cancel Nat.one_le_two_pow).symm⟩
  have hones := bitsValue_ones (e.pending.toNat + 1)
  rw [pow_succ, hq] at hones
  have hones' : bitsValue (List.replicate (e.pending.toNat + 1) true) = 2 * q + 1 := by omega
  rw [streamValue, finished_stream hlim, bitsValue_append, bitsValue_zeros, finalBits,
    bitsValue_append, bitsValue_cons, List.length_replicate, List.length_cons, List.length_replicate,
    List.length_replicate, codePoint, pow_add _ _ 32, pow_succ, pow_succ, hq]
  split
  case isTrue h =>
    rw [decide_eq_true h, Bool.not_true, bitsValue_zeros, half]
    simp only [Bool.toNat_true, Nat.add_sub_cancel]
    ring
  case isFalse h =>
    rw [decide_eq_false h, Bool.not_false, hones', half, quarter]
    simp only [Bool.toNat_false, Nat.add_sub_cancel]
    ring

/-- A renormalized interval contains the stream that ends its session (R172). -/
theorem contains_finished {e : Encoder} (hstop : renormCase e.low e.high = .stop)
    (hlim : e.pending.toNat < Config.pendingLimit) : Contains (finishedEncoder e).out e := by
  obtain ⟨hlow, hhigh, -⟩ := renormCase_stop hstop
  rw [Contains, finished_value hlim, codePoint_le_iff, codePoint_lt_iff]
  unfold half quarter at *
  split <;> omega

/-- All `ENC_FIN` has done when it ends with no fault. -/
theorem exec_encFin_ok {s t : State} (h : exec .encFin s = .next t) (ht : t.fault = false) :
    s.fault = false ∧ s.enc.pending.toNat < Config.pendingLimit ∧
      t = { s with enc := finishedEncoder s.enc } := by
  obtain ⟨hs, hok⟩ := command_completed h ht
  obtain ⟨-, e, he, rfl⟩ := encFinRule_ok hok
  obtain ⟨rfl, hlim⟩ := finishEncoder_ok he
  exact ⟨hs, hlim, rfl⟩

/-! ### The decoder follows the encoder (R207, R209) -/

/-- The decoder has read as far as the encoder's shifts reach, and its code is the place of the stream in
the encoder's interval. -/
structure Follows (out : List Byte) (e : Encoder) (d : Decoder) : Prop where
  bitPos : d.bitPos = 32 + shiftCount e
  input : d.input = out
  active : d.active = true
  code : streamValue out (32 + shiftCount e) = codePoint e d.code.toNat

/-- A decoder that follows the encoder with the encoder's bounds. -/
structure Tracks (out : List Byte) (e : Encoder) (d : Decoder) : Prop extends Follows out e d where
  low : d.low = e.low
  high : d.high = e.high

/-- The code of a decoder that follows is in the part of the interval that contains the stream. -/
theorem Follows.code_between {out : List Byte} {e : Encoder} {d : Decoder} (h : Follows out e d)
    {low high : Word} (hc : Contains out { e with low := low, high := high }) :
    low.toNat ≤ d.code.toNat ∧ d.code.toNat ≤ high.toNat := by
  obtain ⟨h1, h2⟩ := hc
  change codePoint e _ ≤ streamValue out (32 + shiftCount e) at h1
  change streamValue out (32 + shiftCount e) < codePoint e _ at h2
  rw [h.code, codePoint_le_iff] at h1
  rw [h.code, codePoint_lt_iff] at h2
  exact ⟨h1, Nat.le_of_lt_succ h2⟩

/-- A common iteration of both loops: what the encoder puts or makes pending the decoder has subtracted
from its code, and the bit it takes in is the next one of the stream. -/
theorem Follows.step {out : List Byte} {e e' : Encoder} {d : Decoder} (hlow : d.low = e.low)
    (hhigh : d.high = e.high) (hs : renormCase e.low e.high ≠ .stop) (hf : Follows out e d)
    (hin : CodeInside d) (hc : encCaseBits (renormCase e.low e.high) e = .ok e') :
    Follows out (encMove (renormCase e.low e.high) e') (decMove (renormCase e.low e.high) d) := by
  obtain ⟨hcl, hch⟩ := hin
  have hcode := decMove_code (d := d) (by rw [hlow, hhigh]; exact hs) ⟨hcl, hch⟩
  rw [hlow, hhigh, hf.input, hf.bitPos] at hcode
  obtain ⟨hoff, -⟩ := renorm_point (x := d.code) hs (hlow ▸ hcl) (hhigh ▸ hch)
  refine ⟨?_, hf.input, hf.active, ?_⟩
  · rw [decMove_bitPos, hf.bitPos, shiftCount_step hc hs, Nat.add_assoc]
  · rw [hcode, codePoint_add, codePoint_step hc hs hoff, ← hf.code, shiftCount_step hc hs,
      ← Nat.add_assoc, streamValue_succ]

/-- `DEC_INIT` reads the first 32 bits of the stream as a number. -/
theorem shiftCodeInMany_code (n : Nat) {d : Decoder} (hn : d.bitPos + n ≤ 32)
    (h : d.code.toNat = streamValue d.input d.bitPos) :
    (shiftCodeInMany n d).code.toNat = streamValue d.input (d.bitPos + n) := by
  induction n generalizing d with
  | zero => exact h
  | succ n ih =>
    have hlt : d.code.toNat < half := by
      have hpow : 2 ^ d.bitPos ≤ 2 ^ 31 := Nat.pow_le_pow_right (by decide) (by omega)
      have := streamValue_lt d.input d.bitPos
      unfold half
      omega
    have hrest := ih (d := shiftCodeIn d) (by rw [shiftCodeIn_bitPos]; omega)
      (by rw [shiftCodeIn_code hlt, shiftCodeIn_input, shiftCodeIn_bitPos, streamValue_succ, h])
    rw [shiftCodeIn_input, shiftCodeIn_bitPos] at hrest
    rw [shiftCodeInMany, hrest, Nat.add_right_comm, Nat.add_assoc]

/-- A new decoder session tracks a Fresh encoder, whatever the stream. -/
theorem tracks_init (out : List Byte) (d : Decoder) : Tracks out freshEncoder (initDecoder out d) where
  bitPos := initDecoder_bitPos out d
  input := initDecoder_input out d
  active := rfl
  code := by
    have hpoint : codePoint freshEncoder (initDecoder out d).code.toNat
        = (initDecoder out d).code.toNat := by
      simp [codePoint, freshEncoder, sinkBits, heldBits]
    rw [hpoint]
    exact (shiftCodeInMany_code 32 (d := { d with input := out, bitPos := 0, code := 0 })
      (Nat.le_refl 32) rfl).symm
  low := rfl
  high := rfl

/-! ### One symbol -/

/-- The offset of a code between the two quotients of `Narrow` puts its value between the two entries of
the symbol (R203, the converse of `value_between`). -/
theorem value_of_between {c range total a b : Nat} (hr : 1 ≤ range) (ht : 1 ≤ total)
    (ha : range * a / total ≤ c) (hb : c + 1 ≤ range * b / total) :
    a ≤ ((c + 1) * total - 1) / range ∧ ((c + 1) * total - 1) / range < b := by
  constructor
  · rw [Nat.le_div_iff_mul_le hr, Nat.mul_comm]
    exact Nat.le_sub_one_of_lt ((Nat.div_lt_iff_lt_mul ht).mp (Nat.lt_succ_of_le ha))
  · rw [Nat.div_lt_iff_lt_mul hr, Nat.mul_comm b]
    have hle := (Nat.le_div_iff_mul_le ht).mp hb
    have hpos : 1 ≤ (c + 1) * total := Nat.mul_pos (Nat.succ_pos c) ht
    omega

/-- A decoder that tracks the encoder before a symbol answers that symbol and tracks the encoder after
it, if the stream is inside the interval after it. -/
theorem decSym_tracks {out : List Byte} {s t u : State} {m : TableSel} {sym : Byte} (hi : s.Inv)
    (h : exec (.encSym m sym) s = .next t) (ht : t.fault = false) (hc : Contains out t.enc)
    (hf : u.fault = false) (htr : Tracks out s.enc u.dec) (hu : Usable u m)
    (htab : selectedTable u m = selectedTable s m) :
    ∃ d, exec (.decSym m) u = .next (respond (sym.setWidth 32) { u with dec := d }) ∧
      Tracks out t.enc d := by
  obtain ⟨b, hn, hb, hlow, hhigh⟩ := contains_narrowed hi h ht hc
  obtain ⟨-, hp, hus, hfreq, b', e, hn', hrenorm, rfl⟩ := exec_encSym_ok hi h ht
  obtain rfl : b' = b := Except.ok.inj (hn'.symm.trans hn)
  obtain ⟨hcl, hch⟩ := htr.code_between hb
  have hti := selectedTable_inv hi hus
  obtain ⟨v, hv, hvt⟩ := decValue_ok (d := u.dec) (by rw [htr.low]; omega)
    (by rw [htr.high]; omega) hus.2.1
  obtain ⟨-, -, -, hval⟩ := decValue_eq_ok hv
  have hsym : findSymbol (selectedTable s m) v = .ok sym := by
    rw [findSymbol_eq_ok_iff hti hvt, hval, htr.low, htr.high]
    obtain ⟨-, hb1, hb2⟩ := narrow_eq_ok hn
    rw [Nat.add_sub_cancel' hfreq.le] at hb2
    exact value_of_between (Nat.succ_pos _) hus.2.1 (by omega) (by omega)
  obtain ⟨d, hd, hdlow, hdhigh, hfol, -⟩ := renorm_lockStep
    (R := fun x y => Follows out x y ∧ CodeInside y)
    (fun x x' y hl hh hs hxy hxc => ⟨hxy.1.step hl hh hs hxy.2 hxc, by
      rw [← hl, ← hh]; exact decMove_inside (by rw [hl, hh]; exact hs) hxy.2⟩)
    Config.renormFuel (e := { s.enc with low := b'.1, high := b'.2 })
    (d := { u.dec with low := b'.1, high := b'.2 }) rfl rfl
    ⟨⟨htr.bitPos, htr.input, htr.active, htr.code⟩, hcl, hch⟩ hrenorm
  refine ⟨d, exec_decSym_of_decodeSymbol hf htr.active hu ?_,
    { hfol with low := hdlow, high := hdhigh }⟩
  rw [htab]
  exact decodeSymbol_of_parts hti hv hsym (by rw [htr.low, htr.high]; exact hn) hd

/-! ### Runs -/

theorem runCommands_cons_next {i : Instr} {is : List Instr} {s t : State}
    (h : runCommands (i :: is) s = .next t) : ∃ u, exec i s = .next u ∧ runCommands is u = .next t := by
  cases hi : exec i s with
  | next u => exact ⟨u, rfl, runCommands_cons (is := is) hi ▸ h⟩
  | fault f => simp only [runCommands, hi] at h; cases h
  | refused r => simp only [runCommands, hi] at h; cases h

theorem runCommands_append_next {is js : List Instr} {s t : State}
    (h : runCommands (is ++ js) s = .next t) :
    ∃ u, runCommands is s = .next u ∧ runCommands js u = .next t := by
  induction is generalizing s with
  | nil => exact ⟨s, rfl, h⟩
  | cons i is ih =>
    obtain ⟨v, hv, hrest⟩ := runCommands_cons_next h
    obtain ⟨u, hu, ht⟩ := ih hrest
    exact ⟨u, (runCommands_cons hv).trans hu, ht⟩

theorem runCommands_inv {is : List Instr} {s t : State} (hi : s.Inv)
    (h : runCommands is s = .next t) : t.Inv := by
  induction is generalizing s with
  | nil => cases h; exact hi
  | cons i is ih =>
    obtain ⟨u, hu, hrest⟩ := runCommands_cons_next h
    exact ih (exec_inv hi hu) hrest

/-- A run that ends with no fault recorded began with none: no command clears one (R266). -/
theorem runCommands_fault {is : List Instr} {s t : State} (h : runCommands is s = .next t)
    (ht : t.fault = false) : s.fault = false := by
  induction is generalizing s with
  | nil => cases h; exact ht
  | cons i is ih =>
    obtain ⟨u, hu, hrest⟩ := runCommands_cons_next h
    have huf := ih hrest
    by_contra hs
    rw [(exec_keeps_faultCode (eq_true_of_ne_false hs) hu).1] at huf
    cases huf

/-- The commands that encode a list of symbols. -/
def encodeSyms (syms : List (TableSel × Byte)) : List Instr := syms.map fun p => .encSym p.1 p.2

/-- The commands that decode as many symbols with the same selections. -/
def decodeSyms (syms : List (TableSel × Byte)) : List Instr := syms.map fun p => .decSym p.1

/-- The words a decoder responds with for a list of symbols. -/
def symWords (syms : List (TableSel × Byte)) : List Word := syms.map fun p => p.2.setWidth 32

/-- The symbols of a run change only the encoder. -/
theorem encodeSyms_frame {syms : List (TableSel × Byte)} {s t : State} (hi : s.Inv)
    (h : runCommands (encodeSyms syms) s = .next t) (ht : t.fault = false) :
    t = { s with enc := t.enc } := by
  induction syms generalizing s with
  | nil => cases h; rfl
  | cons p syms ih =>
    obtain ⟨u, hu, hrest⟩ := runCommands_cons_next h
    have hframe := ih (exec_inv hi hu) hrest
    obtain ⟨-, -, -, -, b, e, -, -, rfl⟩ := exec_encSym_ok hi hu (runCommands_fault hrest ht)
    exact hframe

/-- Every symbol ends with a renormalized interval. -/
theorem encodeSyms_stop {syms : List (TableSel × Byte)} {s t : State} (hi : s.Inv)
    (h : runCommands (encodeSyms syms) s = .next t) (ht : t.fault = false)
    (hs : renormCase s.enc.low s.enc.high = .stop) : renormCase t.enc.low t.enc.high = .stop := by
  induction syms generalizing s with
  | nil => cases h; exact hs
  | cons p syms ih =>
    obtain ⟨u, hu, hrest⟩ := runCommands_cons_next h
    refine ih (exec_inv hi hu) hrest ?_
    obtain ⟨-, -, -, -, b, e, -, hrenorm, rfl⟩ := exec_encSym_ok hi hu (runCommands_fault hrest ht)
    exact (encRenorm_sinkBits hrenorm).2

/-- The stream inside the last interval of a run is inside its first one. -/
theorem contains_of_encodeSyms {out : List Byte} {syms : List (TableSel × Byte)} {s t : State}
    (hi : s.Inv) (h : runCommands (encodeSyms syms) s = .next t) (ht : t.fault = false)
    (hc : Contains out t.enc) : Contains out s.enc := by
  induction syms generalizing s with
  | nil => cases h; exact hc
  | cons p syms ih =>
    obtain ⟨u, hu, hrest⟩ := runCommands_cons_next h
    exact contains_of_encSym hi hu (runCommands_fault hrest ht) (ih (exec_inv hi hu) hrest)

/-- The decoder's tables serve a select as the encoder's do. -/
def Serves (s u : State) (m : TableSel) : Prop :=
  (Usable s m → Usable u m) ∧ selectedTable u m = selectedTable s m

/-- Which tables serve depends on the tables and on `MAX_TOTAL` only. -/
theorem Serves.congr {s u u' : State} {m : TableSel} (h : Serves s u m) (hlut : u'.lut = u.lut)
    (hmax : u'.maxTotal = u.maxTotal) : Serves s u' m := by
  obtain ⟨husable, htab⟩ := h
  have htab' := selectedTable_congr hlut m
  refine ⟨fun hu => ?_, htab'.trans htab⟩
  obtain ⟨hvalid, hpos, hle⟩ := husable hu
  exact ⟨fun hm => hlut ▸ hvalid hm, htab' ▸ hpos, by rw [htab', hmax]; exact hle⟩

theorem Serves.refl (s : State) (m : TableSel) : Serves s s m := ⟨id, rfl⟩

/-- The induction over a session, once: a decoder that tracks the encoder before a run of symbols
answers exactly those symbols, and tracks the encoder after it. -/
theorem decodeSyms_tracks {out : List Byte} {syms : List (TableSel × Byte)} {s t u : State}
    (hi : s.Inv) (h : runCommands (encodeSyms syms) s = .next t) (ht : t.fault = false)
    (hc : Contains out t.enc) (hf : u.fault = false) (htr : Tracks out s.enc u.dec)
    (hserves : ∀ p ∈ syms, Serves s u p.1) :
    ∃ d, runCommands (decodeSyms syms) u = .next { u with dec := d, rsp := u.rsp ++ symWords syms } ∧
      Tracks out t.enc d := by
  induction syms generalizing s u with
  | nil =>
    cases h
    exact ⟨u.dec, by simp [decodeSyms, symWords, runCommands], htr⟩
  | cons p syms ih =>
    obtain ⟨v, hv, hrest⟩ := runCommands_cons_next h
    have hvf := runCommands_fault hrest ht
    have hvi := exec_inv hi hv
    obtain ⟨husable, htab⟩ := hserves p List.mem_cons_self
    obtain ⟨d, hd, hdtr⟩ := decSym_tracks hi hv hvf (contains_of_encodeSyms hvi hrest ht hc) hf htr
      (husable (exec_encSym_ok hi hv hvf).2.2.1) htab
    obtain ⟨-, -, -, -, b, e, -, -, rfl⟩ := exec_encSym_ok hi hv hvf
    obtain ⟨d', hd', hdtr'⟩ := ih (u := respond (p.2.setWidth 32) { u with dec := d }) hvi hrest hf hdtr
      fun q hq => hserves q (List.mem_cons_of_mem p hq)
    refine ⟨d', ?_, hdtr'⟩
    rw [decodeSyms, List.map_cons, runCommands_cons hd]
    refine hd'.trans ?_
    simp [respond, symWords]

/-- A decoder session on a stream that is inside the last interval of an encoder session answers the
symbols of that session. -/
theorem decodeSession_tracks {syms : List (TableSel × Byte)} {s t u : State} (hi : s.Inv)
    (hfresh : s.enc = freshEncoder) (h : runCommands (encodeSyms syms) s = .next t)
    (ht : t.fault = false) (hc : Contains u.inPort t.enc) (hf : u.fault = false)
    (hserves : ∀ p ∈ syms, Serves s u p.1) :
    ∃ d, runCommands (.decInit :: decodeSyms syms) u
        = .next { u with dec := d, rsp := u.rsp ++ symWords syms } ∧ Tracks u.inPort t.enc d := by
  obtain ⟨d, hd, htr⟩ := decodeSyms_tracks (u := { u with dec := initDecoder u.inPort u.dec })
    hi h ht hc hf (hfresh ▸ tracks_init u.inPort u.dec) fun p hp => (hserves p hp).congr rfl rfl
  exact ⟨d, (runCommands_cons (exec_decInit hf)).trans hd, htr⟩

/-- Settles O46: the finished stream is inside every interval of the session, and the decoder session on
it starts by tracking the Fresh encoder. -/
theorem sessionRoundTrip : Obligations.SessionRoundTrip := by
  intro s t syms hi hf hfresh h ht
  obtain ⟨v, hv, hfin⟩ := runCommands_append_next h
  rw [runCommands_singleton] at hfin
  obtain ⟨hvf, hlim, rfl⟩ := exec_encFin_ok hfin ht
  have henc : s.enc = freshEncoder := hi.enc.fresh hfresh
  have hstop := encodeSyms_stop hi hv hvf (by rw [henc]; decide)
  have hframe := encodeSyms_frame hi hv hvf
  have hlut : v.lut = s.lut := by rw [hframe]
  have hmax : v.maxTotal = s.maxTotal := by rw [hframe]
  obtain ⟨d, hd, -⟩ := decodeSession_tracks
    (u := { v with enc := finishedEncoder v.enc, inPort := (finishedEncoder v.enc).out })
    hi henc hv hvf (contains_finished hstop hlim) hvf fun p _ =>
      (Serves.refl s p.1).congr hlut hmax
  exact ⟨_, hd, hvf, rfl⟩

end Sys2Proof.Machine
end

section
/-! The host protocol (20_memory.md, R70 to R74): the encode protocol completes, its header is decoded
under the uniform table, and the table the header gives decodes the data. -/

namespace Sys2Proof.Machine

/-! ### The smoothed frequencies (R72) -/

/-- Every byte value once, in order. -/
def allBytes : List Byte := (List.range 256).map (BitVec.ofNat 8)

theorem allBytes_nodup : allBytes.Nodup := by
  refine List.Nodup.map_on (fun i hi j hj h => ?_) List.nodup_range
  rw [← toNat_ofNat_of_lt (n := 8) (List.mem_range.mp hi), h,
    toNat_ofNat_of_lt (n := 8) (List.mem_range.mp hj)]

theorem mem_allBytes (b : Byte) : b ∈ allBytes :=
  List.mem_map.mpr ⟨b.toNat, List.mem_range.mpr b.isLt, BitVec.ofNat_toNat 8 b ▸ BitVec.setWidth_eq b⟩

/-- The counts of all byte values add up to the length. -/
theorem sum_count_allBytes (data : List Byte) : (allBytes.map data.count).sum = data.length := by
  have hlist := List.sum_toFinset data.count allBytes_nodup
  have hcard := Multiset.sum_count_eq_card (s := allBytes.toFinset) (m := (data : Multiset Byte))
    fun b _ => List.mem_toFinset.mpr (mem_allBytes b)
  simp only [Multiset.coe_count, Multiset.coe_card] at hcard
  exact hlist.symm.trans hcard

theorem smoothedFreq_toNat {data : List Byte} (h : data.length < 2 ^ 27) (i : Nat) :
    (smoothedFreq data i).toNat = data.count (BitVec.ofNat 8 i) + 1 := by
  have hle : data.count (BitVec.ofNat 8 i) ≤ data.length := List.count_le_length
  rw [smoothedFreq, toNat_ofNat_of_lt (by omega)]

theorem smoothedFreqs_length (data : List Byte) : (smoothedFreqs data).length = 256 := by
  simp [smoothedFreqs]

/-- The frequencies of a byte sequence as the contents of `FREQ`. -/
def dataFreqs (data : List Byte) : Vector Word 256 :=
  ⟨(smoothedFreqs data).toArray, smoothedFreqs_length data⟩

theorem dataFreqs_toList (data : List Byte) : (dataFreqs data).toList = smoothedFreqs data := rfl

/-- The total of the data's table: one for each byte value and one for each byte. -/
theorem dataFreqs_sum {data : List Byte} (h : data.length < 2 ^ 27) :
    ((dataFreqs data).toList.map BitVec.toNat).sum = 256 + data.length := by
  have hmap : (dataFreqs data).toList.map BitVec.toNat
      = (List.range 256).map fun i => data.count (BitVec.ofNat 8 i) + 1 := by
    rw [dataFreqs_toList, smoothedFreqs, List.map_map]
    exact List.map_congr_left fun i _ => smoothedFreq_toNat h i
  have hcount := sum_count_allBytes data
  rw [allBytes, List.map_map] at hcount
  rw [hmap, List.sum_map_add, List.map_const', List.sum_replicate, List.length_range]
  change ((List.range 256).map (data.count ∘ BitVec.ofNat 8)).sum + _ = _
  rw [hcount]
  simp [Nat.add_comm]

theorem dataFreqs_fit {data : List Byte} (h : data.length < 2 ^ 27) :
    ((dataFreqs data).toList.map BitVec.toNat).sum ≤ top := by
  rw [dataFreqs_sum h, top]
  omega

/-- The data's table may be used on a core whose `MAX_TOTAL` is large enough. -/
theorem usable_data {data : List Byte} {s : State} (h : data.length < 2 ^ 27)
    (hmax : 256 + data.length ≤ s.maxTotal.toNat) (hl : s.lut = loadedLut (dataFreqs data)) :
    Usable s .built := by
  have htotal : tableTotal (selectedTable s .built) = 256 + data.length := by
    rw [selectedTable, hl]
    exact (buildTable_last ((buildSums_fit_iff _).mpr (dataFreqs_fit h))).trans (dataFreqs_sum h)
  exact ⟨fun _ => by rw [hl]; rfl, by omega, by omega⟩

/-- Every byte value has a frequency in the data's table. -/
theorem data_symbol {data : List Byte} {s : State} (h : data.length < 2 ^ 27)
    (hl : s.lut = loadedLut (dataFreqs data)) (sym : Byte) :
    cumLow (selectedTable s .built) sym < cumNext (selectedTable s .built) sym := by
  have hsucc := buildTable_succ ((buildSums_fit_iff _).mpr (dataFreqs_fit h)) sym.toNat sym.isLt
  have hfreq : (dataFreqs data)[sym.toNat] = smoothedFreq data sym.toNat := by
    simp [dataFreqs, smoothedFreqs]
  rw [hfreq, smoothedFreq_toNat h] at hsucc
  rw [selectedTable, hl]
  change (buildTable (dataFreqs data))[sym.toNat].toNat < _
  change _ < (buildTable (dataFreqs data))[sym.toNat + 1].toNat
  omega

/-! ### Loading the data's table (R72 step 2, R73 step 3) -/

theorem runCommands_loadData {data : List Byte} {s : State} (h : data.length < 2 ^ 27)
    (hf : s.fault = false) :
    runCommands (loadTable (smoothedFreqs data)) s
      = .next { s with lut := loadedLut (dataFreqs data) } :=
  runCommands_loadTable (dataFreqs data) hf (dataFreqs_fit h)

/-! ### The header (R70, R71) -/

/-- The header's bytes: the length, then the frequencies. -/
def headerStream (data : List Byte) : List Byte :=
  (BitVec.ofNat 32 data.length :: smoothedFreqs data).flatMap headerBytes

theorem headerStream_length (data : List Byte) : (headerStream data).length = 1028 := by
  have hfour (v : Word) : (headerBytes v).length = 4 := rfl
  simp only [headerStream, List.length_flatMap, hfour, List.map_const', List.sum_replicate,
    List.length_cons, smoothedFreqs_length]
  rfl

/-- A field taken out of a register and put back at its place is the register masked to the field. -/
theorem regFieldAt_extractLsb' (v : Word) (lo n : Nat) :
    regFieldAt lo (v.extractLsb' lo n) = v &&& regFieldAt lo (BitVec.allOnes n) := by
  ext i hi
  by_cases hl : lo ≤ i
  · simp [hl, Nat.add_sub_cancel' hl, BitVec.getLsbD_eq_getElem hi, Bool.and_comm]
  · simp [hl]

/-- Four bytes of a value, low byte first, write the value (R71). -/
theorem headerValue_headerBytes (v : Word) :
    headerValue ((v.extractLsb' 0 8).setWidth 32) ((v.extractLsb' 8 8).setWidth 32)
      ((v.extractLsb' 16 8).setWidth 32) ((v.extractLsb' 24 8).setWidth 32) = v := by
  have hfield (lo : Nat) : (v.extractLsb' lo 8).setWidth 32 <<< lo
      = v &&& regFieldAt lo (BitVec.allOnes 8) := regFieldAt_extractLsb' v lo 8
  have hfirst : (v.extractLsb' 0 8).setWidth 32 = v &&& regFieldAt 0 (BitVec.allOnes 8) := by
    rw [← hfield 0, BitVec.shiftLeft_zero]
  rw [headerValue, hfirst, hfield, hfield, hfield, ← BitVec.and_or_distrib_left,
    ← BitVec.and_or_distrib_left, ← BitVec.and_or_distrib_left]
  exact (congrArg (v &&& ·) (by decide)).trans (BitVec.and_allOnes)

theorem headerValues_flatMap (vs : List Word) :
    headerValues ((vs.flatMap headerBytes).map (BitVec.setWidth 32)) = vs := by
  induction vs with
  | nil => rfl
  | cons v vs ih =>
    rw [List.flatMap_cons, List.map_append]
    change headerValue _ _ _ _ :: headerValues ((vs.flatMap headerBytes).map _) = _
    rw [headerValue_headerBytes, ih]

/-- A list of bytes as symbols of one table. -/
def symsOf (m : TableSel) (bytes : List Byte) : List (TableSel × Byte) := bytes.map (Prod.mk m)

theorem encodeSyms_symsOf (m : TableSel) (bytes : List Byte) :
    encodeSyms (symsOf m bytes) = bytes.map (.encSym m) := by
  simp [encodeSyms, symsOf]

theorem decodeSyms_symsOf (m : TableSel) (bytes : List Byte) :
    decodeSyms (symsOf m bytes) = List.replicate bytes.length (.decSym m) := by
  rw [decodeSyms, symsOf, List.map_map]
  change bytes.map (fun _ => Instr.decSym m) = _
  exact List.map_const'

theorem symWords_symsOf (m : TableSel) (bytes : List Byte) :
    symWords (symsOf m bytes) = bytes.map (BitVec.setWidth 32) := by
  simp [symWords, symsOf]

theorem encodeHeader_eq (data : List Byte) :
    encodeHeader data = encodeSyms (symsOf .uniform (headerStream data)) := by
  rw [encodeSyms_symsOf, headerStream, List.flatMap_cons, List.map_append, List.map_flatMap]
  rfl

theorem decodeHeaderCommands_eq (data : List Byte) :
    decodeHeaderCommands = decodeSyms (symsOf .uniform (headerStream data)) := by
  rw [decodeSyms_symsOf, headerStream_length, decodeHeaderCommands, List.flatMap_replicate,
    Pseudo.expand, List.flatten_replicate_replicate]

/-! ### The encode protocol (R72) -/

/-- Uniform symbols from the full interval complete and leave it full with nothing pending (R171). -/
theorem runCommands_uniform (bytes : List Byte) {s : State} (hf : s.fault = false)
    (hmax : 256 ≤ s.maxTotal.toNat) (hp : s.enc.phase ≠ .finished) (hlow : s.enc.low = 0)
    (hhigh : s.enc.high = 0xFFFFFFFF) (hpending : s.enc.pending = 0) :
    ∃ e, runCommands (encodeSyms (symsOf .uniform bytes)) s = .next { s with enc := e } ∧
      e.phase ≠ .finished ∧ e.pending = 0 := by
  induction bytes generalizing s with
  | nil => exact ⟨s.enc, rfl, hp, hpending⟩
  | cons b bytes ih =>
    obtain ⟨t, ht, htlow, hthigh, htpending, htphase, -, hframe⟩ :=
      uniformSymbolPutsItsByte s b hf hp hmax hlow hhigh hpending
    rw [hframe] at ht
    obtain ⟨e, he, hphase, hzero⟩ := ih (s := { s with enc := t.enc }) hf hmax
      (by rw [htphase]; nofun) htlow hthigh htpending
    exact ⟨e, (runCommands_cons ht).trans he, hphase, hzero⟩

/-- One symbol adds at most 32 pending bits (R169). -/
theorem pending_after_encSym {s t : State} {m : TableSel} {sym : Byte} (hi : s.Inv)
    (hf : s.fault = false) (h : exec (.encSym m sym) s = .next t) (ht : t.fault = false)
    (hbits : sinkBits s.enc <+: sinkBits t.enc) :
    t.enc.pending.toNat ≤ s.enc.pending.toNat + 32 := by
  obtain ⟨k, hk, hcount, -⟩ := encSymIsExact s t m sym hi hf h ht
  have hlen := hbits.length_le
  unfold shiftCount at hcount
  omega

/-- Data under a table in which every byte has a frequency completes while the counter has room for 32
pending bits a symbol. -/
theorem runCommands_built (bytes : List Byte) {s : State} (hi : s.Inv) (hf : s.fault = false)
    (hp : s.enc.phase ≠ .finished) (hu : Usable s .built)
    (hfreq : ∀ sym, cumLow (selectedTable s .built) sym < cumNext (selectedTable s .built) sym)
    (hroom : s.enc.pending.toNat + 32 * bytes.length < Config.pendingLimit) :
    ∃ e, runCommands (encodeSyms (symsOf .built bytes)) s = .next { s with enc := e } ∧
      e.phase ≠ .finished ∧ e.pending.toNat < Config.pendingLimit := by
  induction bytes generalizing s with
  | nil => exact ⟨s.enc, rfl, hp, by simpa using hroom⟩
  | cons b bytes ih =>
    rw [List.length_cons] at hroom
    unfold Config.pendingLimit at *
    obtain ⟨t, ht, htf, htphase, -, -, -, hbits, hframe⟩ :=
      encSymCompletes s .built b hi hf hp hu (hfreq b) (by omega)
    have hti := exec_inv hi ht
    have hpending := pending_after_encSym hi hf ht htf hbits
    rw [hframe] at ht hti
    obtain ⟨e, he, hphase, hlim⟩ := ih (s := { s with enc := t.enc }) hti hf (by rw [htphase]; nofun)
      hu hfreq (by dsimp only; omega)
    exact ⟨e, (runCommands_cons ht).trans he, hphase, hlim⟩

/-- The state in which the encode protocol begins its session: the data's table loaded, the encoder
Fresh. -/
def sessionStart (data : List Byte) (s : State) : State :=
  { s with lut := loadedLut (dataFreqs data), enc := freshEncoder }

theorem sessionStart_inv {data : List Byte} {s : State} (h : data.length < 2 ^ 27) (hi : s.Inv) :
    (sessionStart data s).Inv :=
  (hi.withLut (l := loadedLut (dataFreqs data)) fun _ =>
    buildTable_inv ((buildSums_fit_iff _).mpr (dataFreqs_fit h))).withEnc freshEncoder_inv

/-- The encode protocol completes: its session is the header's run, the data's run and `ENC_FIN`. -/
theorem encodeCommands_completes {data : List Byte} {s : State} (hi : s.Inv) (hf : s.fault = false)
    (hmax : 256 + data.length ≤ s.maxTotal.toNat) (hlen : data.length < 2 ^ 27) :
    ∃ eh ed : Encoder,
      runCommands (encodeSyms (symsOf .uniform (headerStream data))) (sessionStart data s)
        = .next { sessionStart data s with enc := eh } ∧
      runCommands (encodeSyms (symsOf .built data)) { sessionStart data s with enc := eh }
        = .next { sessionStart data s with enc := ed } ∧
      ed.pending.toNat < Config.pendingLimit ∧
      runCommands (encodeCommands data) s
        = .next { sessionStart data s with enc := finishedEncoder ed } := by
  have hmax' : 256 ≤ s.maxTotal.toNat := by omega
  obtain ⟨eh, hheader, hphase, hpending⟩ := runCommands_uniform (headerStream data)
    (s := sessionStart data s) hf hmax' nofun rfl rfl rfl
  obtain ⟨ed, hdata, hdphase, hlim⟩ := runCommands_built data
    (s := { sessionStart data s with enc := eh })
    (runCommands_inv (sessionStart_inv hlen hi) hheader) hf hphase (usable_data hlen hmax rfl)
    (data_symbol hlen rfl) (by
      dsimp only
      rw [hpending, Config.pendingLimit, show (0 : Word).toNat = 0 from rfl]
      omega)
  refine ⟨eh, ed, hheader, hdata, hlim, ?_⟩
  have hinit : runCommands [Instr.encInit] { s with lut := loadedLut (dataFreqs data) }
      = .next (sessionStart data s) := by
    rw [runCommands_singleton]
    exact exec_encInit (s := { s with lut := loadedLut (dataFreqs data) }) hf
  rw [encodeSyms_symsOf] at hdata
  simp only [encodeCommands, Pseudo.expand, List.append_assoc]
  rw [runCommands_append (runCommands_loadData hlen hf), runCommands_append hinit, encodeHeader_eq,
    runCommands_append hheader, runCommands_append hdata, runCommands_singleton]
  exact exec_encFin (s := { sessionStart data s with enc := ed }) hf hdphase hlim

/-! ### The decode protocol (R73) -/

/-- The commands after the header load the table and decode one symbol for each byte. -/
theorem decodeDataCommands_eq {data : List Byte} (h : data.length < 2 ^ 27) :
    decodeDataCommands (BitVec.ofNat 32 data.length) (smoothedFreqs data)
      = loadTable (smoothedFreqs data) ++ decodeSyms (symsOf .built data) := by
  rw [decodeDataCommands, decodeSyms_symsOf, toNat_ofNat_of_lt (by omega)]

/-- The decode protocol up to the header answers the header's bytes and tracks the encoder through it. -/
theorem decodeHeader_tracks {data : List Byte} {s t u : State} (hi : s.Inv)
    (hfresh : s.enc = freshEncoder)
    (h : runCommands (encodeSyms (symsOf .uniform (headerStream data))) s = .next t)
    (ht : t.fault = false) (hc : Contains u.inPort t.enc) (hf : u.fault = false)
    (hmax : 256 ≤ u.maxTotal.toNat) :
    ∃ d, runCommands (.decInit :: decodeHeaderCommands) u = .next { u with
        dec := d, rsp := u.rsp ++ (headerStream data).map (BitVec.setWidth 32) } ∧
      Tracks u.inPort t.enc d := by
  rw [decodeHeaderCommands_eq data, ← symWords_symsOf .uniform]
  refine decodeSession_tracks hi hfresh h ht hc hf fun p hp => ?_
  obtain ⟨b, -, rfl⟩ := List.mem_map.mp hp
  exact ⟨fun _ => usable_uniform hmax, rfl⟩

/-- After the header, the decoder loads the encoder's table and answers the data. -/
theorem decodeData_answers {data out : List Byte} {s t u : State} (hlen : data.length < 2 ^ 27)
    (hi : s.Inv) (hl : s.lut = loadedLut (dataFreqs data))
    (h : runCommands (encodeSyms (symsOf .built data)) s = .next t) (ht : t.fault = false)
    (hc : Contains out t.enc) (hf : u.fault = false) (hmax : 256 + data.length ≤ u.maxTotal.toNat)
    (htr : Tracks out s.enc u.dec) :
    ∃ v, runCommands (decodeDataCommands (BitVec.ofNat 32 data.length) (smoothedFreqs data)) u
        = .next v ∧
      v.fault = false ∧ v.rsp = u.rsp ++ data.map (BitVec.setWidth 32) := by
  rw [decodeDataCommands_eq hlen, runCommands_append (runCommands_loadData hlen hf),
    ← symWords_symsOf .built]
  obtain ⟨d, hd, -⟩ := decodeSyms_tracks (u := { u with lut := loadedLut (dataFreqs data) })
    hi h ht hc hf htr fun p hp => by
      obtain ⟨b, -, rfl⟩ := List.mem_map.mp hp
      exact ⟨fun _ => usable_data hlen hmax rfl, (congrArg Lut.cum hl).symm⟩
  exact ⟨_, hd, hf, rfl⟩

/-- Settles O47: header and data are two runs of one session, and the decoder tracks the encoder through
both, loading between them the table the header gives. -/
theorem protocolRoundTrip : Obligations.ProtocolRoundTrip := by
  intro s d data hi hf hdi hdf hsmax hdmax hlen
  obtain ⟨eh, ed, hheader, hdata, hlim, hrun⟩ := encodeCommands_completes hi hf hsmax hlen
  have hstart := sessionStart_inv hlen hi
  have hmid := runCommands_inv hstart hheader
  have hfresh : renormCase (sessionStart data s).enc.low (sessionStart data s).enc.high = .stop := by
    change renormCase freshEncoder.low freshEncoder.high = .stop
    decide
  have hstop := encodeSyms_stop hmid hdata hf (encodeSyms_stop hstart hheader hf hfresh)
  have hcontains : Contains (finishedEncoder ed).out ed := contains_finished hstop hlim
  obtain ⟨dh, hdh, htrack⟩ := decodeHeader_tracks (u := { d with inPort := (finishedEncoder ed).out })
    hstart rfl hheader hf (contains_of_encodeSyms hmid hdata hf hcontains) hdf
    ((Nat.le_add_right _ _).trans hdmax)
  refine ⟨_, hrun, hf, _, _, hdh, hdf, rfl, ?_, ?_, ?_⟩
  · rw [List.length_map, headerStream_length]
  · exact headerValues_flatMap _
  · exact decodeData_answers hlen hmid rfl hdata hf hcontains hdf hdmax htrack

end Sys2Proof.Machine
end
